-- ==== Sys2Proof/Word.lean ====
section
/-! DEFINITION. The two word types of the display front end (00_scope.md R13): u16 and u8. -/

namespace Sys2Proof

/-- A u16: a coordinate, a pixel value, a packet word (R13, R60). -/
abbrev Word := BitVec 16

/-- A u8: a bus byte, a command opcode byte, an image byte (R13, R74). -/
abbrev Byte := BitVec 8

end Sys2Proof
end

