-- ==== Sys2Proof/Syntax.lean ====
section
/-! DEFINITION. The host operations as data (30_encoding.md R63), the packets that carry them (R60, R79), and the
assembler's lines (R72, R73). One constructor of `Instr` per row of spec/opcode_table.json. -/

namespace Sys2Proof

/-- The four orientations, in the order of R65. -/
inductive Orientation where
  | portrait
  | landscape
  | portraitInverted
  | landscapeInverted
deriving DecidableEq, Repr, Inhabited

/-- The nine operations of the opcode map (R63), as names without operands. -/
inductive Opcode where
  | init
  | setOrientation
  | fbClear
  | fbWritePixel
  | fbReadPixel
  | fbCopyRegion
  | showPanel
  | showRegion
  | drawImage
deriving DecidableEq, Repr

/-- A host operation with its operands (R63, R66). Every operand value is legal (R66). -/
inductive Instr where
  /-- INIT (R101). -/
  | init (o : Orientation)
  /-- SET_ORIENTATION (R112). -/
  | setOrientation (o : Orientation)
  /-- FB_CLEAR (R121). -/
  | fbClear (color : Word)
  /-- FB_WRITE_PIXEL (R122). -/
  | fbWritePixel (x y color : Word)
  /-- FB_READ_PIXEL (R123). -/
  | fbReadPixel (x y : Word)
  /-- FB_COPY_REGION (R124); its side data `SRC` comes beside the packet (R79). -/
  | fbCopyRegion (sx0 sy0 sx1 sy1 dx dy srcW srcH : Word)
  /-- SHOW (R154). -/
  | showPanel
  /-- SHOW_REGION (R153). -/
  | showRegion (x0 y0 x1 y1 : Word)
  /-- DRAW_IMAGE (R155); `len` is `L`, its side data `IMG` comes beside the packet (R79). -/
  | drawImage (x0 y0 x1 y1 : Word) (len : BitVec 32)
deriving DecidableEq, Repr

/-- What the host delivers for one operation: the packet's words (R60) and the read-only memories beside it (R79):
`src` for FB_COPY_REGION (20_memory.md R41), `img` for DRAW_IMAGE (R42). -/
structure Packet where
  words : List Word
  src : List Word
  img : List Byte
deriving DecidableEq, Repr

/-- What the host can do to the DFE between two operations: deliver a packet (R60), or reset the block (R200; log 13). -/
inductive HostInput where
  | packet (p : Packet)
  | blockReset
deriving DecidableEq, Repr

/-- The mnemonics of the assembler syntax (R72) and the pseudo-operation CLEAR_SCREEN (R73). -/
inductive Mnemonic where
  | op (m : Opcode)
  | clearScreen
deriving DecidableEq, Repr

/-- An operand in the assembler syntax: an orientation name or a number (R72). -/
inductive AsmOperand where
  | orient (o : Orientation)
  | num (n : Nat)
deriving DecidableEq, Repr

/-- One line of the assembler syntax (R72). -/
structure AsmLine where
  mnemonic : Mnemonic
  operands : List AsmOperand
deriving DecidableEq, Repr

end Sys2Proof
end

