-- ==== Sys2Proof/Config.lean ====
section
/-! DEFINITION. What an implementation fixes (00_scope.md R10) and the free values (R17). The parameters are a record,
so that a statement for every state is a statement for every configuration (log 2). The free values are constants
without a body: nothing can be proved of what they are. -/

namespace Sys2Proof

/-- The two controller profiles (R2). A profile differs from the other only in the parameters below. -/
inductive Profile where
  | st7789v2
  | gc9a01a
deriving DecidableEq, Repr, Inhabited

/-- The named settle delays (R10, R77): a DELAY event carries the name of a duration. -/
inductive DelayName where
  | rstHold
  | rstSettle
  | wake
  | dispon
deriving DecidableEq, Repr, Inhabited

/-- The transport's answer to one bus event (30_encoding.md R78). -/
inductive Ack where
  | ok
  | err
deriving DecidableEq, Repr, Inhabited

/-- One entry of `TUNING_TABLE` (R10): a command byte and its parameter bytes. -/
structure TuningEntry where
  command : Byte
  params : List Byte
deriving DecidableEq, Repr, Inhabited

/-- The parameters of R10, read-only (10_state.md R29). The four delay durations are not here: an event carries their
names, and no rule reads their values (`Config.delayDuration`). -/
structure Config where
  /-- `PROFILE` -/
  profile : Profile
  /-- `FB_W`, 1..65535 (R11). -/
  fbW : Word
  /-- `FB_H`, 1..65535 (R11). -/
  fbH : Word
  /-- `PANEL_W`, 1..65535 (R11). -/
  panelW : Word
  /-- `PANEL_H`, 1..65535 (R11). -/
  panelH : Word
  /-- `SUPPORTED_ORIENT`, not empty. -/
  supported : List Orientation
  opSlpout : Byte
  opColmod : Byte
  opMadctl : Byte
  opCaset : Byte
  opRaset : Byte
  opRamwr : Byte
  opDispon : Byte
  /-- `COLMOD_RGB565` -/
  colmodRgb565 : Byte
  /-- `MADCTL_VAL(0)` -/
  madctlPortrait : Byte
  /-- `MADCTL_VAL(1)` -/
  madctlLandscape : Byte
  /-- `MADCTL_VAL(2)` -/
  madctlPortraitInverted : Byte
  /-- `MADCTL_VAL(3)` -/
  madctlLandscapeInverted : Byte
  /-- `TUNING_TABLE` -/
  tuning : List TuningEntry
  /-- `RST_ACTIVE`: the level of the reset line when asserted. -/
  rstActive : BitVec 1
deriving DecidableEq, Repr, Inhabited

/-- `N_PIX = FB_W * FB_H`, the number of framebuffer words (R12). -/
def Config.nPix (c : Config) : Nat := c.fbW.toNat * c.fbH.toNat

/-- `1 - RST_ACTIVE`: the level of the released reset line (10_state.md R20, R26). -/
def Config.released (c : Config) : BitVec 1 := 1#1 - c.rstActive

/-- `MADCTL_VAL` (R10): the parameter byte of the orientation command. -/
def Config.madctlVal (c : Config) : Orientation → Byte
  | .portrait => c.madctlPortrait
  | .landscape => c.madctlLandscape
  | .portraitInverted => c.madctlPortraitInverted
  | .landscapeInverted => c.madctlLandscapeInverted

/-- The example configuration EX of 95_test_vectors.md, section 0. DESIGN CHOICE (log 3): the spec gives no parameter a
value, and `State.reset` is the reset state of an instance built with EX. Unsafe: a claim about `State.reset` is a claim
about EX alone. -/
def Config.ex : Config where
  profile := .st7789v2
  fbW := 8
  fbH := 6
  panelW := 8
  panelH := 6
  supported := [.portrait, .landscape, .portraitInverted, .landscapeInverted]
  opSlpout := 0x11
  opColmod := 0x3A
  opMadctl := 0x36
  opCaset := 0x2A
  opRaset := 0x2B
  opRamwr := 0x2C
  opDispon := 0x29
  colmodRgb565 := 0x55
  madctlPortrait := 0x00
  madctlLandscape := 0x60
  madctlPortraitInverted := 0xC0
  madctlLandscapeInverted := 0xA0
  tuning := [⟨0xB2, [0x0C, 0x0C]⟩, ⟨0x21, []⟩]
  rstActive := 0

/-- Free value (log 4): what the undefined framebuffer word at the address reads as, in the operation whose draw count
is the first argument (10_state.md R22: a fresh draw at every read). -/
opaque Config.freeWord : Nat → Nat → Word

/-- Free value (log 8): the `SRC` word at an index the delivered side data does not reach. -/
opaque Config.freeSrcWord : Nat → Nat → Word

/-- Free value (log 8): the `IMG` byte at an offset the delivered side data does not reach. -/
opaque Config.freeImgByte : Nat → Nat → Byte

/-- Free value (log 5): the transport's answer, in the operation whose draw count is the first argument, to the event at
the position of `TRACE` that is the second (R78: the model admits either answer at every such event). -/
opaque Config.freeAck : Nat → Nat → Ack

/-- The durations `T_RST_HOLD`, `T_RST_SETTLE`, `T_WAKE`, `T_DISPON` of an instance, in a unit the spec does not name
(R10, R77; log 15). No step reads them: the model has no clock (R8). -/
opaque Config.delayDuration : Config → DelayName → Nat

end Sys2Proof
end

