-- ==== Sys2Proof/WellFormed.lean ====
section
/-! DEFINITION. The checks on what an implementer and a host supply: a configuration (00_scope.md R10, R11), an operation
under a configuration (30_encoding.md R65, 41_sequencer.md R115), and the side data of an operation (20_memory.md R41, R42). -/

namespace Sys2Proof

/-- The geometry and orientation constraints of R10 and R11. The upper bound 65535 is the width of `Word` (log 18). -/
def Config.wf (c : Config) : Bool :=
  decide (1 ≤ c.fbW.toNat) && decide (1 ≤ c.fbH.toNat) && decide (1 ≤ c.panelW.toNat) && decide (1 ≤ c.panelH.toNat) &&
    !c.supported.isEmpty

/-- An operation is well formed under a configuration when the orientation it names is in `SUPPORTED_ORIENT` (R65, R115);
no other operand value is illegal (R66). -/
def Instr.wf (c : Config) : Instr → Bool
  | .init o => decide (o ∈ c.supported)
  | .setOrientation o => decide (o ∈ c.supported)
  | .fbClear _ => true
  | .fbWritePixel _ _ _ => true
  | .fbReadPixel _ _ => true
  | .fbCopyRegion _ _ _ _ _ _ _ _ => true
  | .showPanel => true
  | .showRegion _ _ _ _ => true
  | .drawImage _ _ _ _ _ => true

/-- The side data a host delivers beside an operation is as long as its operands say: `SRC_W * SRC_H` words (R41), `L`
bytes (R42), and nothing for the other operations (R79). -/
def Instr.sideDataFits (i : Instr) (src : List Word) (img : List Byte) : Bool :=
  match i with
  | .fbCopyRegion _ _ _ _ _ _ srcW srcH => decide (src.length = srcW.toNat * srcH.toNat) && img.isEmpty
  | .drawImage _ _ _ _ len => src.isEmpty && decide (img.length = len.toNat)
  | .init _ => src.isEmpty && img.isEmpty
  | .setOrientation _ => src.isEmpty && img.isEmpty
  | .fbClear _ => src.isEmpty && img.isEmpty
  | .fbWritePixel _ _ _ => src.isEmpty && img.isEmpty
  | .fbReadPixel _ _ => src.isEmpty && img.isEmpty
  | .showPanel => src.isEmpty && img.isEmpty
  | .showRegion _ _ _ _ => src.isEmpty && img.isEmpty

end Sys2Proof
end

