-- ==== Sys2Proof/Decode.lean ====
section
/-! DEFINITION. The decoder and the encoder of host packets (30_encoding.md R60 to R69), the layout of an opcode-table
word as a packet, and the assembler of R72 and R73. -/

namespace Sys2Proof

/-! ### Header fields (R61) -/

/-- `OPC = w[0][15:8]` (R61). -/
def headerOpc (h : Word) : Byte := h.extractLsb' 8 8

/-- `RSV = w[0][7:2]` (R61). -/
def headerRsv (h : Word) : BitVec 6 := h.extractLsb' 2 6

/-- `ORI = w[0][1:0]` (R61). -/
def headerOri (h : Word) : BitVec 2 := h.extractLsb' 0 2

/-- The header word `{OPC, RSV = 0, ORI}` (R61, R67). -/
def headerWord (opc : Byte) (ori : BitVec 2) : Word := opc ++ (0#6 ++ ori)

/-- The orientation codes of R65. -/
def orientationCode : Orientation → BitVec 2
  | .portrait => 0
  | .landscape => 1
  | .portraitInverted => 2
  | .landscapeInverted => 3

/-- The orientation a code of R65 stands for. Every two-bit code stands for one. -/
def orientationOf (c : BitVec 2) : Orientation :=
  if c = 0 then .portrait else if c = 1 then .landscape else if c = 2 then .portraitInverted else .landscapeInverted

/-! ### The opcode map (R63) -/

/-- The column OPC of R63. -/
def opcodeByte : Opcode → Byte
  | .init => 0x01
  | .setOrientation => 0x02
  | .fbClear => 0x10
  | .fbWritePixel => 0x11
  | .fbReadPixel => 0x12
  | .fbCopyRegion => 0x13
  | .showPanel => 0x20
  | .showRegion => 0x21
  | .drawImage => 0x22

/-- The operation an `OPC` value stands for; a value not in the table of R63 is illegal (R68). -/
def opcodeOf (b : Byte) : Option Opcode :=
  match b.toNat with
  | 0x01 => some .init
  | 0x02 => some .setOrientation
  | 0x10 => some .fbClear
  | 0x11 => some .fbWritePixel
  | 0x12 => some .fbReadPixel
  | 0x13 => some .fbCopyRegion
  | 0x20 => some .showPanel
  | 0x21 => some .showRegion
  | 0x22 => some .drawImage
  | _ => none

/-- The packet length n of R63, fixed by `OPC` alone (R64). -/
def packetLength : Opcode → Nat
  | .init => 1
  | .setOrientation => 1
  | .fbClear => 2
  | .fbWritePixel => 4
  | .fbReadPixel => 3
  | .fbCopyRegion => 9
  | .showPanel => 1
  | .showRegion => 5
  | .drawImage => 7

/-- The operations whose header carries an orientation in `ORI`; in every other header `ORI` must be 0 (R61, R67). -/
def carriesOrientation : Opcode → Bool
  | .init => true
  | .setOrientation => true
  | .fbClear => false
  | .fbWritePixel => false
  | .fbReadPixel => false
  | .fbCopyRegion => false
  | .showPanel => false
  | .showRegion => false
  | .drawImage => false

/-- The operation a decoded instruction is. -/
def opcodeOfInstr : Instr → Opcode
  | .init _ => .init
  | .setOrientation _ => .setOrientation
  | .fbClear _ => .fbClear
  | .fbWritePixel _ _ _ => .fbWritePixel
  | .fbReadPixel _ _ => .fbReadPixel
  | .fbCopyRegion _ _ _ _ _ _ _ _ => .fbCopyRegion
  | .showPanel => .showPanel
  | .showRegion _ _ _ _ => .showRegion
  | .drawImage _ _ _ _ _ => .drawImage

/-! ### The decoder (R69) -/

/-- Why a packet is illegal (R68, R185). -/
inductive Reject where
  /-- The packet has no word; R60 gives every packet at least one (log 11). -/
  | emptyPacket
  /-- `OPC` is not in the opcode map (R63). -/
  | unknownOpcode (opc : Byte)
  /-- The length is not the one R63 gives the `OPC` (R64). -/
  | wrongLength (m : Opcode) (n : Nat)
  /-- `RSV` is not 0 (R67). -/
  | reservedBits
  /-- `ORI` is not 0 on an operation that carries no orientation (R67). -/
  | strayOrientation (m : Opcode)
deriving DecidableEq, Repr

/-- What a packet decodes to: exactly one operation with its operands, or "illegal" (R69). -/
inductive Decoded where
  | op (i : Instr)
  | illegal (why : Reject)
deriving DecidableEq, Repr

/-- The operand word `w[k + 1]` (R62). Asked only of packets whose length is the one of R63, so that the word is there. -/
def operandWord (ops : List Word) (k : Nat) : Word := ops.getD k 0

/-- The operands `w[1..n-1]` in the order of R63, after the header and the length have been accepted. `L = {w[5], w[6]}`
(R62). -/
def decodeOperands (m : Opcode) (o : Orientation) (ops : List Word) : Instr :=
  match m with
  | .init => .init o
  | .setOrientation => .setOrientation o
  | .fbClear => .fbClear (operandWord ops 0)
  | .fbWritePixel => .fbWritePixel (operandWord ops 0) (operandWord ops 1) (operandWord ops 2)
  | .fbReadPixel => .fbReadPixel (operandWord ops 0) (operandWord ops 1)
  | .fbCopyRegion =>
    .fbCopyRegion (operandWord ops 0) (operandWord ops 1) (operandWord ops 2) (operandWord ops 3)
      (operandWord ops 4) (operandWord ops 5) (operandWord ops 6) (operandWord ops 7)
  | .showPanel => .showPanel
  | .showRegion => .showRegion (operandWord ops 0) (operandWord ops 1) (operandWord ops 2) (operandWord ops 3)
  | .drawImage =>
    .drawImage (operandWord ops 0) (operandWord ops 1) (operandWord ops 2) (operandWord ops 3)
      (operandWord ops 4 ++ operandWord ops 5)

/-- The decoder of R69: total, reading in order `OPC`, the length, `RSV`, `ORI`. -/
def decode : List Word → Decoded
  | [] => .illegal .emptyPacket
  | h :: ops =>
    match opcodeOf (headerOpc h) with
    | none => .illegal (.unknownOpcode (headerOpc h))
    | some m =>
      if ops.length + 1 ≠ packetLength m then .illegal (.wrongLength m (ops.length + 1))
      else if headerRsv h ≠ 0 then .illegal .reservedBits
      else if headerOri h ≠ 0 ∧ carriesOrientation m = false then .illegal (.strayOrientation m)
      else .op (decodeOperands m (orientationOf (headerOri h)) ops)

/-! ### The encoder (R61 to R63) -/

/-- The `ORI` field of an operation's header: its orientation code, or 0 (R61). -/
def oriField : Instr → BitVec 2
  | .init o => orientationCode o
  | .setOrientation o => orientationCode o
  | .fbClear _ => 0
  | .fbWritePixel _ _ _ => 0
  | .fbReadPixel _ _ => 0
  | .fbCopyRegion _ _ _ _ _ _ _ _ => 0
  | .showPanel => 0
  | .showRegion _ _ _ _ => 0
  | .drawImage _ _ _ _ _ => 0

/-- The operand words of an operation, in the order of R63. -/
def operandWords : Instr → List Word
  | .init _ => []
  | .setOrientation _ => []
  | .fbClear c => [c]
  | .fbWritePixel x y c => [x, y, c]
  | .fbReadPixel x y => [x, y]
  | .fbCopyRegion a b c d e f g h => [a, b, c, d, e, f, g, h]
  | .showPanel => []
  | .showRegion a b c d => [a, b, c, d]
  | .drawImage a b c d len => [a, b, c, d, len.extractLsb' 16 16, len.extractLsb' 0 16]

/-- The packet words of an operation (R61, R63). -/
def encode (i : Instr) : List Word := headerWord (opcodeByte (opcodeOfInstr i)) (oriField i) :: operandWords i

/-! ### Opcode-table words as packets -/

/-- The 16-bit words of a number whose bit 0 is the least significant bit of the first word, as many as `nbits` fill
(log 16). -/
def tableWords (nbits w : Nat) : List Word :=
  (List.range ((nbits + 15) / 16)).map fun k => BitVec.ofNat 16 (w >>> (16 * k))

/-- The packet of a table word: its words, followed by operand words of zeros up to the length R63 gives its `OPC`. -/
def tablePacket (nbits w : Nat) : List Word :=
  match tableWords nbits w with
  | [] => []
  | h :: ops =>
    match opcodeOf (headerOpc h) with
    | none => h :: ops
    | some m => (h :: ops) ++ List.replicate (packetLength m - (ops.length + 1)) 0

/-- The instruction the decoder reads from a table word, operand words of zeros; none where it refuses. -/
def decodeTableWord (nbits w : Nat) : Option Instr :=
  match decode (tablePacket nbits w) with
  | .op i => some i
  | .illegal _ => none

/-! ### The assembler (R72, R73) -/

/-- A number in the range of a u16 field (R72). -/
def asmWord (n : Nat) : Option Word := if n < 65536 then some (BitVec.ofNat 16 n) else none

/-- The orientation operand: a name, or a number 0 to 3 (R72). -/
def asmOrientation : AsmOperand → Option Orientation
  | .orient o => some o
  | .num n => if n < 4 then some (orientationOf (BitVec.ofNat 2 n)) else none

/-- The number operands of a line, each in the range of a u16 field (R72). -/
def asmWords : List AsmOperand → Option (List Word)
  | [] => some []
  | .orient _ :: _ => none
  | .num n :: rest =>
    match asmWord n, asmWords rest with
    | some w, some ws => some (w :: ws)
    | _, _ => none

/-- The image length operand of DRAW_IMAGE, in the range of a u32 (R66, R72). -/
def asmLength (n : Nat) : Option (BitVec 32) := if n < 4294967296 then some (BitVec.ofNat 32 n) else none

/-- The operation a line of the assembler syntax names (R72); CLEAR_SCREEN is FB_CLEAR (R73). -/
def asmInstr (l : AsmLine) : Option Instr :=
  match l.mnemonic, l.operands with
  | .op .init, [a] => (asmOrientation a).map .init
  | .op .setOrientation, [a] => (asmOrientation a).map .setOrientation
  | .op .drawImage, [a, b, c, d, .num n] =>
    match asmWords [a, b, c, d], asmLength n with
    | some [x0, y0, x1, y1], some len => some (.drawImage x0 y0 x1 y1 len)
    | _, _ => none
  | m, ops =>
    match m, asmWords ops with
    | .op .fbClear, some [c] => some (.fbClear c)
    | .clearScreen, some [c] => some (.fbClear c)
    | .op .fbWritePixel, some [x, y, c] => some (.fbWritePixel x y c)
    | .op .fbReadPixel, some [x, y] => some (.fbReadPixel x y)
    | .op .fbCopyRegion, some [a, b, c, d, e, f, g, h] => some (.fbCopyRegion a b c d e f g h)
    | .op .showPanel, some [] => some .showPanel
    | .op .showRegion, some [a, b, c, d] => some (.showRegion a b c d)
    | _, _ => none

/-- The packet a line assembles to (R72, R73). -/
def assemble (l : AsmLine) : Option (List Word) := (asmInstr l).map encode

/-- The line of the assembler syntax that names an operation (R72). -/
def asmLine : Instr → AsmLine
  | .init o => ⟨.op .init, [.orient o]⟩
  | .setOrientation o => ⟨.op .setOrientation, [.orient o]⟩
  | .fbClear c => ⟨.op .fbClear, [.num c.toNat]⟩
  | .fbWritePixel x y c => ⟨.op .fbWritePixel, [.num x.toNat, .num y.toNat, .num c.toNat]⟩
  | .fbReadPixel x y => ⟨.op .fbReadPixel, [.num x.toNat, .num y.toNat]⟩
  | .fbCopyRegion a b c d e f g h =>
    ⟨.op .fbCopyRegion, [.num a.toNat, .num b.toNat, .num c.toNat, .num d.toNat, .num e.toNat, .num f.toNat, .num g.toNat, .num h.toNat]⟩
  | .showPanel => ⟨.op .showPanel, []⟩
  | .showRegion a b c d => ⟨.op .showRegion, [.num a.toNat, .num b.toNat, .num c.toNat, .num d.toNat]⟩
  | .drawImage a b c d len => ⟨.op .drawImage, [.num a.toNat, .num b.toNat, .num c.toNat, .num d.toNat, .num len.toNat]⟩

end Sys2Proof
end

