-- ==== Sys2Proof/Machine/State.lean ====
section
/-! DEFINITION. The state of the display front end (10_state.md R20) as plain data, with the configuration it runs under
(R29), the side data of the operation being run (30_encoding.md R79), the response port (R70), and the environment's
inputs. `State.reset` is the state after block reset (70_reset_and_hazards.md R200, R201). -/

namespace Sys2Proof.Machine

/-- The stops of a step. The DFE itself never stops: every error is a status (60_exceptions.md R187). -/
inductive Fault where
  /-- The transport never acknowledges an event of the operation, or the delay provider never returns from a DELAY: "a
  transport that never answers hangs the DFE in the operation, and this spec gives that hang no status" (R212; I10 of 93,
  `stuck`). Raised by the bus operations (INIT, SET_ORIENTATION, SHOW, SHOW_REGION, DRAW_IMAGE) when `State.answersLeft`
  runs out. Safe: the hardware goes on waiting, and nothing is claimed of that wait (log 6). -/
  | neverAnswered
deriving DecidableEq, Repr

/-- The rejections of a step. -/
inductive Refusal where
  /-- An operation without a meaning. Raised by nobody: all nine operations have their meaning. Safe. -/
  | notModelled (mnemonic : String)
deriving DecidableEq, Repr

/-- The values of `SEQ_STATE` (R24). The reserved codes 3 to 7 are "never held" and have no name here. The first three are
held between operations; the others only while an INIT runs. -/
inductive SeqState where
  | uninit
  | ready
  | failed
  | rstAssert
  | rstHold
  | rstRelease
  | rstSettle
  | wake
  | config
  | tune
  | dispon
deriving DecidableEq, Repr

/-- The status codes of R180. -/
inductive Status where
  | ok
  | transportError
  | outOfBounds
  | invalidRegion
  | illegalCommand
deriving DecidableEq, Repr

/-- The bus events of the panel port (R74). -/
inductive Event where
  /-- `CMD(b)`: one command byte. -/
  | cmd (b : Byte)
  /-- `DATA(b)`: one data byte. -/
  | data (b : Byte)
  /-- `RST(l)`: the level of the panel reset line. -/
  | rst (l : BitVec 1)
  /-- `DELAY(d)`: a wait of at least the named duration. -/
  | delay (d : DelayName)
deriving DecidableEq, Repr

/-- An entry of `TRACE`: an event with the acknowledgement it got (R32). -/
structure BusRecord where
  event : Event
  ack : Ack
deriving DecidableEq, Repr

/-- A framebuffer word that is defined: its word address and its value (R22). The unit is the 16-bit word, for the
framebuffer has no byte lanes (20_memory.md R48; log 1). -/
abbrev FbCell := Nat × Word

structure State where
  /-- The configuration (R29): read only, no step changes it (log 2). -/
  cfg : Config
  /-- `FB` (R22): the defined words, addresses strictly rising; an unlisted address is an undefined word. -/
  fb : List FbCell
  /-- `SEQ_STATE` (R24; log 17). -/
  seq : SeqState
  /-- `RST_LINE` (R26). -/
  rstLine : BitVec 1
  /-- `TRACE` (R32), oldest event first. -/
  trace : List BusRecord
  /-- The response port (R70): `[RESP]` or `[RESP, RDATA]` of the last packet; empty before the first (log 9). -/
  response : List Word
  /-- `SRC` (R41) of the operation being run; empty between operations (R40). -/
  src : List Word
  /-- `IMG` (R42) of the operation being run; empty between operations (R40). -/
  img : List Byte
  /-- Environment: what the host gives from here on, oldest first (log 7). -/
  host : List HostInput
  /-- Environment: the transport's answers to the events to come; when none is left, answers are free values (log 5). -/
  acks : List Ack
  /-- Environment: how many more events are answered or waited for before the transport or the delay provider falls silent;
  `none` when they always answer (R207, R212; log 6). -/
  answersLeft : Option Nat
  /-- The model's own counter, advanced at every response and block reset: free values are applied to it, so that the draws
  of two operations are independent (R17, R22; log 10). -/
  draws : Nat
deriving DecidableEq, Repr

/-- The state after block reset of an instance built with configuration `c` (R200, R201), with no input from the host, no
answer of the transport fixed beforehand, and an environment that always answers. -/
def State.resetOf (c : Config) : State where
  cfg := c
  fb := []
  seq := .uninit
  rstLine := c.released
  trace := []
  response := []
  src := []
  img := []
  host := []
  acks := []
  answersLeft := none
  draws := 0

/-- The state after block reset (R200, R201) of an instance with the example configuration (log 3). -/
def State.reset : State := State.resetOf Config.ex

end Sys2Proof.Machine
end

