-- ==== Sys2Proof/Machine/Flags.lean ====
section
/-! DEFINITION. The status and state codes and the response word. The DFE keeps no flags (10_state.md R28); what it
reports of an operation is the word `RESP` (30_encoding.md R70), computed here. -/

namespace Sys2Proof.Machine

/-- The 4-bit STATUS codes (60_exceptions.md R180). Codes 5 to 15 are never produced. -/
def statusCode : Status → BitVec 4
  | .ok => 0
  | .transportError => 1
  | .outOfBounds => 2
  | .invalidRegion => 3
  | .illegalCommand => 4

/-- The 4-bit `SEQ_STATE` codes (10_state.md R24). -/
def seqCode : SeqState → BitVec 4
  | .uninit => 0
  | .ready => 1
  | .failed => 2
  | .rstAssert => 8
  | .rstHold => 9
  | .rstRelease => 10
  | .rstSettle => 11
  | .wake => 12
  | .config => 13
  | .tune => 14
  | .dispon => 15

/-- `SEQ_STATE` codes that may be held between operations (R24): UNINIT, READY, FAILED. -/
def seqSettled : SeqState → Bool
  | .uninit => true
  | .ready => true
  | .failed => true
  | .rstAssert => false
  | .rstHold => false
  | .rstRelease => false
  | .rstSettle => false
  | .wake => false
  | .config => false
  | .tune => false
  | .dispon => false

/-- `RESP` (R70): `[15:12]` 0, `[11:8]` SEQ, `[7:4]` 0, `[3:0]` STATUS. -/
def respWord (st : Status) (q : SeqState) : Word := 0#4 ++ (seqCode q ++ (0#4 ++ statusCode st))

/-- The level of the data/command line for an event, 0 for CMD and 1 for DATA; RST and DELAY do not use it. PRESUMED
(log 14): R76 marks the levels as general knowledge, and no rule depends on them. Unsafe for a claim about the pin. -/
def dcLevel : Event → Option (BitVec 1)
  | .cmd _ => some 0
  | .data _ => some 1
  | .rst _ => none
  | .delay _ => none

/-- A DELAY event always receives OK (R78). -/
def isDelay : Event → Bool
  | .cmd _ => false
  | .data _ => false
  | .rst _ => false
  | .delay _ => true

end Sys2Proof.Machine
end

