-- ==== Sys2Proof/Machine/Operands.lean ====
section
/-! DEFINITION. Operand forms: byte serialization (20_memory.md R47), pixel fields, the framebuffer address decoder (R43),
regions, source descriptors, clamping and the row-major walk (43_region_update.md R141 to R147). All are functions of
the configuration and the operands; none reads or writes the state. -/

namespace Sys2Proof.Machine

/-! ### Bytes of a word (R47, R150) -/

/-- `v[15:8]`. -/
def hiByte (v : Word) : Byte := v.extractLsb' 8 8

/-- `v[7:0]`. -/
def loByte (v : Word) : Byte := v.extractLsb' 0 8

/-- `Unpack(v) = [v[15:8], v[7:0]]` (R150). -/
def unpack (v : Word) : List Byte := [hiByte v, loByte v]

/-- A pair of coordinates as four parameter bytes, big-endian (R95, R96). -/
def coordBytes (a b : Word) : List Byte := [hiByte a, loByte a, hiByte b, loByte b]

/-! ### RGB565 fields (R149), for readers who construct colours; no operation splits a pixel -/

/-- Red, `v[15:11]`. -/
def pixelRed (v : Word) : BitVec 5 := v.extractLsb' 11 5

/-- Green, `v[10:5]`. -/
def pixelGreen (v : Word) : BitVec 6 := v.extractLsb' 5 6

/-- Blue, `v[4:0]`. -/
def pixelBlue (v : Word) : BitVec 5 := v.extractLsb' 0 5

/-! ### The framebuffer address decoder (R43, R44) -/

/-- `FbAddr(x, y)` (R43): the word address `y * FB_W + x`, or none for OOB. -/
def fbAddr (c : Config) (x y : Word) : Option Nat :=
  if x.toNat < c.fbW.toNat ∧ y.toNat < c.fbH.toNat then some (y.toNat * c.fbW.toNat + x.toNat) else none

/-- The inverse of the decoder (R44, R45): the pixel a word address holds. -/
def fbCoord (c : Config) (a : Nat) : Nat × Nat := (a % c.fbW.toNat, a / c.fbW.toNat)

/-! ### Regions and the translator -/

/-- A region as its four operands (R46, R66); the ends are exclusive. -/
structure Region where
  x0 : Word
  y0 : Word
  x1 : Word
  y1 : Word
deriving DecidableEq, Repr

/-- Which memory a region operation reads (R143). -/
inductive SourceKind where
  | fb
  | img
deriving DecidableEq, Repr

/-- The source descriptor `S = (kind, ox, oy, bw, bh)` (R143). -/
structure SourceDesc where
  kind : SourceKind
  ox : Nat
  oy : Nat
  bw : Nat
  bh : Nat
deriving DecidableEq, Repr

/-- The clamped window `(x0, y0, x1c, y1c)` (R145), hidden state of the translator while one operation runs (R30; log 12). -/
structure Window where
  x0 : Nat
  y0 : Nat
  x1c : Nat
  y1c : Nat
deriving DecidableEq, Repr

/-- What the checks of a region operation come to (R141 to R145). -/
inductive Translation where
  /-- The operation raises a status before any event. -/
  | rejected (st : Status)
  /-- Zero area: the operation finishes and nothing is sent (R142). -/
  | nothing
  /-- The clamped region, to be sent. -/
  | window (w : Window)
deriving DecidableEq, Repr

/-- The panel bounds `(0, 0, PANEL_W, PANEL_H)` (R18, R154). -/
def panelRegion (c : Config) : Region := ⟨0, 0, c.panelW, c.panelH⟩

/-- `S_FB` (R143). -/
def sourceFb (c : Config) : SourceDesc := ⟨.fb, 0, 0, c.fbW.toNat, c.fbH.toNat⟩

/-- `S_IMG` (R143): the row stride is the unclamped width, the height the number of whole rows `L` holds. Used only for
regions of non-zero area. -/
def sourceImg (r : Region) (len : BitVec 32) : SourceDesc :=
  ⟨.img, r.x0.toNat, r.y0.toNat, r.x1.toNat - r.x0.toNat, len.toNat / (2 * (r.x1.toNat - r.x0.toNat))⟩

/-- The region clamped to the panel (R145). -/
def clampToPanel (c : Config) (r : Region) : Window :=
  ⟨r.x0.toNat, r.y0.toNat, min r.x1.toNat c.panelW.toNat, min r.y1.toNat c.panelH.toNat⟩

/-- Step (d) of R145: the clamped region reaches outside the source buffer. -/
def outsideSource (w : Window) (d : SourceDesc) : Bool :=
  decide (w.x0 < d.ox) || decide (w.y0 < d.oy) || decide (d.ox + d.bw < w.x1c) || decide (d.oy + d.bh < w.y1c)

/-- Steps (a) to (d) of R141 to R145, in the order of R152. -/
def translateRegion (c : Config) (r : Region) (d : SourceDesc) : Translation :=
  if r.x1.toNat < r.x0.toNat ∨ r.y1.toNat < r.y0.toNat then .rejected .invalidRegion
  else if r.x0.toNat = r.x1.toNat ∨ r.y0.toNat = r.y1.toNat then .nothing
  else if c.panelW.toNat ≤ r.x0.toNat ∨ c.panelH.toNat ≤ r.y0.toNat then .rejected .outOfBounds
  else if outsideSource (clampToPanel c r) d then .rejected .outOfBounds
  else .window (clampToPanel c r)

/-- The area of a window: the number of pixels it holds (R46, R147). -/
def windowArea (w : Window) : Nat := (w.x1c - w.x0) * (w.y1c - w.y0)

/-- The row-major walk (R147): the cursor's positions `(cx, cy)`, rows top to bottom, left to right in a row. -/
def windowWalk (w : Window) : List (Nat × Nat) :=
  (List.range' w.y0 (w.y1c - w.y0)).flatMap fun cy => (List.range' w.x0 (w.x1c - w.x0)).map fun cx => (cx, cy)

/-- The pixel index of a cursor position in a source (R143, R147). -/
def pixelIndex (d : SourceDesc) (p : Nat × Nat) : Nat := (p.2 - d.oy) * d.bw + (p.1 - d.ox)

end Sys2Proof.Machine
end

