-- ==== Sys2Proof/Machine/Ops.lean ====
section
/-! DEFINITION. The named operations over the state: framebuffer memory (00_scope.md R16, 10_state.md R22), side data,
taking a packet, ending an operation with a status (the DFE's only form of exception, 60_exceptions.md R180 to R187),
emitting bus events with their acknowledgements (30_encoding.md R78), and block reset (70_reset_and_hazards.md R200). -/

namespace Sys2Proof.Machine

/-! ### Framebuffer memory -/

/-- The canonical form of the framebuffer's list: addresses strictly rising. No value can equal what an unlisted address
reads as, for that is undefined. -/
def fbWf : List FbCell → Bool
  | [] => true
  | [_] => true
  | a :: b :: rest => decide (a.1 < b.1) && fbWf (b :: rest)

/-- The defined value of a word, or none for an undefined word (R22). -/
def fbLookup : List FbCell → Nat → Option Word
  | [], _ => none
  | (b, v) :: rest, a => if a = b then some v else fbLookup rest a

/-- The list with word `a` defined as `v`. -/
def fbSet : List FbCell → Nat → Word → List FbCell
  | [], a, v => [(a, v)]
  | (b, u) :: rest, a, v =>
    if a < b then (a, v) :: (b, u) :: rest else if a = b then (a, v) :: rest else (b, u) :: fbSet rest a v

/-- A list of writes, in order. -/
def fbSetAll (m : List FbCell) (ws : List FbCell) : List FbCell := ws.foldl (fun m w => fbSet m w.1 w.2) m

/-- What an undefined word reads as in the operation being run: a free value (R22; log 4). -/
def State.undefinedWord (s : State) (a : Nat) : Word := Config.freeWord s.draws a

/-- `MemRead(FB, a, 2)` (R16). -/
def State.fbRead (s : State) (a : Nat) : Word := (fbLookup s.fb a).getD (s.undefinedWord a)

/-- `MemWrite(FB, a, 2, v)` (R16). -/
def State.fbWrite (s : State) (a : Nat) (v : Word) : State := { s with fb := fbSet s.fb a v }

/-- A sequence of `MemWrite(FB, a, 2, v)`. -/
def State.fbWriteAll (s : State) (ws : List FbCell) : State := { s with fb := fbSetAll s.fb ws }

/-! ### Side data (R41, R42, R79) -/

/-- `MemRead(SRC, i, 2)` (R16). An index the delivered side data does not reach is a free value (log 8). -/
def State.srcRead (s : State) (i : Nat) : Word := s.src[i]?.getD (Config.freeSrcWord s.draws i)

/-- `MemRead(IMG, b, 1)` (R16). An offset the delivered side data does not reach is a free value (log 8). -/
def State.imgRead (s : State) (b : Nat) : Byte := s.img[b]?.getD (Config.freeImgByte s.draws b)

/-! ### Taking a packet and ending an operation -/

/-- The DFE takes a packet: its side data is there for the operation (R79), and the host's later inputs wait (R60). -/
def State.accept (s : State) (p : Packet) (later : List HostInput) : State :=
  { s with src := p.src, img := p.img, host := later }

/-- An operation ends with a status (R28, R70): the response is returned, the side data is gone (R40), and the next
operation draws anew. `RDATA` is the list after `RESP`: one word for an FB_READ_PIXEL that is OK, none otherwise. -/
def State.respond (s : State) (st : Status) (rdata : List Word) : State :=
  { s with response := respWord st s.seq :: rdata, src := [], img := [], draws := s.draws + 1 }

/-- `finish` (R16): the operation ends with status OK. -/
def State.finish (s : State) : State := s.respond .ok []

/-- `raise <Status>` (R16) for the statuses that come before any effect (R184): nothing but the response. -/
def State.raise (s : State) (st : Status) : State := s.respond st []

/-- An illegal packet (R68): no effect, response IllegalCommand. -/
def State.refusePacket (s : State) : State := s.raise .illegalCommand

/-- Block reset (R200): every framebuffer word undefined, UNINIT, the line released, the trace empty, no operation in
progress. The configuration (R29) and the environment stay; the free values drawn afterwards are new ones. -/
def State.blockReset (s : State) (later : List HostInput) : State :=
  { State.resetOf s.cfg with
    host := later, acks := s.acks, answersLeft := s.answersLeft, draws := s.draws + 1 }

/-! ### Bus events -/

/-- The transport's answer to the next CMD, DATA or RST event: the environment's next answer, else a free value (R78). -/
def State.nextAck (s : State) : Ack :=
  match s.acks with
  | a :: _ => a
  | [] => Config.freeAck s.draws s.trace.length

/-- The acknowledgement an event gets (R78): a DELAY event always OK. -/
def State.ackFor (s : State) (e : Event) : Ack := if isDelay e then .ok else s.nextAck

/-- `emit(e)` (R16): the event and its acknowledgement are appended to the trace (R32). -/
def State.emit (s : State) (e : Event) : State :=
  { s with trace := s.trace ++ [⟨e, s.ackFor e⟩], acks := if isDelay e then s.acks else s.acks.tail }

/-- `seq <- S` (R16). -/
def State.setSeq (s : State) (q : SeqState) : State := { s with seq := q }

/-- `RST_LINE <- l` (R101). -/
def State.setLine (s : State) (l : BitVec 1) : State := { s with rstLine := l }

/-- One action of a bus operation. -/
inductive BusAct where
  /-- `seq <- S`. -/
  | toSeq (q : SeqState)
  /-- `RST_LINE <- l`. -/
  | toLine (l : BitVec 1)
  /-- `emit(e)`. -/
  | emit (e : Event)
deriving DecidableEq, Repr

/-- The events among a list of actions, in order. -/
def actEvents : List BusAct → List Event
  | [] => []
  | .toSeq _ :: rest => actEvents rest
  | .toLine _ :: rest => actEvents rest
  | .emit e :: rest => e :: actEvents rest

/-- Runs a bus operation's actions in order and stops at the first event acknowledged ERR (R16, R78). It answers the state
reached, and OK when every action was run. -/
def runActs : List BusAct → State → State × Ack
  | [], s => (s, .ok)
  | .toSeq q :: rest, s => runActs rest (s.setSeq q)
  | .toLine l :: rest, s => runActs rest (s.setLine l)
  | .emit e :: rest, s =>
    match s.ackFor e with
    | .ok => runActs rest (s.emit e)
    | .err => (s.emit e, .err)

/-- The operation started in `s` ends in `t`, unless the environment fell silent before its last event was answered (R212;
log 6). -/
def State.conclude (s t : State) : Host.Outcome State Fault Refusal :=
  match s.answersLeft with
  | none => .next t
  | some k =>
    if t.trace.length - s.trace.length ≤ k then
      .next { t with answersLeft := some (k - (t.trace.length - s.trace.length)) }
    else .fault .neverAnswered

/-- A whole bus operation: its actions, then status OK, or TransportError after `onErr` at the first event acknowledged
ERR (R181, R184). -/
def State.busOp (s : State) (acts : List BusAct) (onErr : State → State) : Host.Outcome State Fault Refusal :=
  s.conclude
    (match runActs acts s with
    | (t, .ok) => t.finish
    | (t, .err) => (onErr t).respond .transportError [])

end Sys2Proof.Machine
end

