-- ==== Sys2Proof/Machine/Framebuffer.lean ====
section
/-! DEFINITION. The framebuffer operations (42_framebuffer.md R120 to R128). None emits a bus event; every bound is checked
before the first write. -/

namespace Sys2Proof.Machine

/-- FB_CLEAR (R121): every framebuffer word becomes `color`. -/
def execFbClear (color : Word) (s : State) : Host.Outcome State Fault Refusal :=
  .next (s.fbWriteAll ((List.range s.cfg.nPix).map fun a => (a, color))).finish

/-- FB_WRITE_PIXEL (R122). -/
def execFbWritePixel (x y color : Word) (s : State) : Host.Outcome State Fault Refusal :=
  match fbAddr s.cfg x y with
  | none => .next (s.raise .outOfBounds)
  | some a => .next (s.fbWrite a color).finish

/-- FB_READ_PIXEL (R123): response `[RESP, RDATA]`, or `[RESP]` when out of bounds. -/
def execFbReadPixel (x y : Word) (s : State) : Host.Outcome State Fault Refusal :=
  match fbAddr s.cfg x y with
  | none => .next (s.raise .outOfBounds)
  | some a => .next (s.respond .ok [s.fbRead a])

/-- The writes of a copy of `w * h` words (R124), rows top to bottom: framebuffer address and the `SRC` word for it. -/
def copyWrites (s : State) (sx0 sy0 dx dy srcW w h : Nat) : List FbCell :=
  (List.range h).flatMap fun j => (List.range w).map fun i =>
    ((dy + j) * s.cfg.fbW.toNat + (dx + i), s.srcRead ((sy0 + j) * srcW + (sx0 + i)))

/-- FB_COPY_REGION (R124), with the check order of R125. Sums are taken without wrap. -/
def execFbCopyRegion (sx0 sy0 sx1 sy1 dx dy srcW srcH : Word) (s : State) : Host.Outcome State Fault Refusal :=
  if sx1.toNat < sx0.toNat ∨ sy1.toNat < sy0.toNat then .next (s.raise .invalidRegion)
  else if sx1.toNat - sx0.toNat = 0 ∨ sy1.toNat - sy0.toNat = 0 then .next s.finish
  else if srcW.toNat < sx1.toNat ∨ srcH.toNat < sy1.toNat then .next (s.raise .outOfBounds)
  else if s.cfg.fbW.toNat < dx.toNat + (sx1.toNat - sx0.toNat) ∨ s.cfg.fbH.toNat < dy.toNat + (sy1.toNat - sy0.toNat) then
    .next (s.raise .outOfBounds)
  else
    .next (s.fbWriteAll (copyWrites s sx0.toNat sy0.toNat dx.toNat dy.toNat srcW.toNat
      (sx1.toNat - sx0.toNat) (sy1.toNat - sy0.toNat))).finish

end Sys2Proof.Machine
end

