-- ==== Sys2Proof/Machine/Encoder.lean ====
section
/-! DEFINITION. The command encoder (40_command_encoder.md R90 to R99): a pure, total function from the closed catalog to a
command byte and its parameter bytes, and the events that issue it. -/

namespace Sys2Proof.Machine

/-- The catalog of R91. -/
inductive Command where
  | sleepOut
  | colorModeRgb565
  | orientation (o : Orientation)
  | columnRange (xs xe : Word)
  | rowRange (ys ye : Word)
  | memoryWrite
  | displayOn
  | tuning (t : TuningEntry)
deriving DecidableEq, Repr

/-- The command byte of a catalog entry (R91). -/
def commandByte (c : Config) : Command → Byte
  | .sleepOut => c.opSlpout
  | .colorModeRgb565 => c.opColmod
  | .orientation _ => c.opMadctl
  | .columnRange _ _ => c.opCaset
  | .rowRange _ _ => c.opRaset
  | .memoryWrite => c.opRamwr
  | .displayOn => c.opDispon
  | .tuning t => t.command

/-- The parameter bytes of a catalog entry (R91). -/
def commandParams (c : Config) : Command → List Byte
  | .sleepOut => []
  | .colorModeRgb565 => [c.colmodRgb565]
  | .orientation o => [c.madctlVal o]
  | .columnRange xs xe => coordBytes xs xe
  | .rowRange ys ye => coordBytes ys ye
  | .memoryWrite => []
  | .displayOn => []
  | .tuning t => t.params

/-- The events of `Issue(op)` (R90): the command byte, then its parameter bytes in order. -/
def issueEvents (c : Config) (op : Command) : List Event :=
  .cmd (commandByte c op) :: (commandParams c op).map .data

/-- `Issue(op)` as actions (R90). -/
def issue (c : Config) (op : Command) : List BusAct := (issueEvents c op).map .emit

end Sys2Proof.Machine
end

