-- ==== Sys2Proof/Machine/RegionUpdate.lean ====
section
/-! DEFINITION. The region operations (43_region_update.md R140 to R159): SHOW_REGION, SHOW and DRAW_IMAGE over the one
common procedure `RegionCore` (R152). -/

namespace Sys2Proof.Machine

/-- `PixelBytes(S, p)` (R151): a framebuffer word unpacked, or two image bytes unchanged. -/
def State.pixelBytes (s : State) (d : SourceDesc) (p : Nat) : List Byte :=
  match d.kind with
  | .fb => unpack (s.fbRead p)
  | .img => [s.imgRead (2 * p), s.imgRead (2 * p + 1)]

/-- The addressing window and the memory-write command (R146, R152): inclusive column and row ranges (log 19), no panel
offset. -/
def windowEvents (c : Config) (w : Window) : List Event :=
  issueEvents c (.columnRange (BitVec.ofNat 16 w.x0) (BitVec.ofNat 16 (w.x1c - 1))) ++
  issueEvents c (.rowRange (BitVec.ofNat 16 w.y0) (BitVec.ofNat 16 (w.y1c - 1))) ++
  issueEvents c .memoryWrite

/-- The pixel bytes of the window, in row-major order (R147, R151). -/
def State.pixelEvents (s : State) (d : SourceDesc) (w : Window) : List Event :=
  (windowWalk w).flatMap fun p => (s.pixelBytes d (pixelIndex d p)).map .data

/-- Every event of a region operation, in order (R152, R156). -/
def State.regionEvents (s : State) (d : SourceDesc) (w : Window) : List Event :=
  windowEvents s.cfg w ++ s.pixelEvents d w

/-- `RegionCore` (R152). Every check comes before the first event. -/
def State.regionCore (s : State) (r : Region) (d : SourceDesc) : Host.Outcome State Fault Refusal :=
  match translateRegion s.cfg r d with
  | .rejected st => .next (s.raise st)
  | .nothing => .next s.finish
  | .window w => s.busOp ((s.regionEvents d w).map .emit) (fun t => t)

/-- SHOW_REGION (R153). -/
def execShowRegion (x0 y0 x1 y1 : Word) (s : State) : Host.Outcome State Fault Refusal :=
  s.regionCore ⟨x0, y0, x1, y1⟩ (sourceFb s.cfg)

/-- SHOW (R154): the whole panel from the framebuffer. -/
def execShowPanel (s : State) : Host.Outcome State Fault Refusal :=
  s.regionCore (panelRegion s.cfg) (sourceFb s.cfg)

/-- DRAW_IMAGE (R155). -/
def execDrawImage (x0 y0 x1 y1 : Word) (len : BitVec 32) (s : State) : Host.Outcome State Fault Refusal :=
  s.regionCore ⟨x0, y0, x1, y1⟩ (sourceImg ⟨x0, y0, x1, y1⟩ len)

end Sys2Proof.Machine
end

