-- ==== Sys2Proof/Machine/Sequencer.lean ====
section
/-! DEFINITION. The command sequencer (41_sequencer.md R100 to R116): INIT and SET_ORIENTATION. -/

namespace Sys2Proof.Machine

/-- Step 1 of INIT, reset (R102): the line is written before each RST event. -/
def resetStep (c : Config) : List BusAct :=
  [.toSeq .rstAssert, .toLine c.rstActive, .emit (.rst c.rstActive),
    .toSeq .rstHold, .emit (.delay .rstHold),
    .toSeq .rstRelease, .toLine c.released, .emit (.rst c.released),
    .toSeq .rstSettle, .emit (.delay .rstSettle)]

/-- Step 2, wake (R103). -/
def wakeStep (c : Config) : List BusAct := .toSeq .wake :: (issue c .sleepOut ++ [.emit (.delay .wake)])

/-- Step 3, configuration (R104): colour mode, then the orientation INIT carries (R105). -/
def configStep (c : Config) (o : Orientation) : List BusAct :=
  .toSeq .config :: (issue c .colorModeRgb565 ++ issue c (.orientation o))

/-- Step 4, tuning (R106): the table's entries in order, no DELAY. The tuning index is the position in the table. -/
def tuneStep (c : Config) : List BusAct := .toSeq .tune :: c.tuning.flatMap fun t => issue c (.tuning t)

/-- Step 5, display on (R107). -/
def displayOnStep (c : Config) : List BusAct := .toSeq .dispon :: (issue c .displayOn ++ [.emit (.delay .dispon)])

/-- The linear state machine of INIT (R101), ending in READY (R108). -/
def initActs (c : Config) (o : Orientation) : List BusAct :=
  resetStep c ++ wakeStep c ++ configStep c o ++ tuneStep c ++ displayOnStep c ++ [BusAct.toSeq .ready]

/-- INIT (R101). An unsupported orientation is IllegalCommand before any effect (R115); an event acknowledged ERR aborts
with `SEQ_STATE` FAILED and TransportError (R110). -/
def execInit (o : Orientation) (s : State) : Host.Outcome State Fault Refusal :=
  if o ∈ s.cfg.supported then s.busOp (initActs s.cfg o) (fun t => t.setSeq .failed)
  else .next (s.raise .illegalCommand)

/-- SET_ORIENTATION (R112): the orientation command and nothing else, in every `SEQ_STATE` (R113). -/
def execSetOrientation (o : Orientation) (s : State) : Host.Outcome State Fault Refusal :=
  if o ∈ s.cfg.supported then s.busOp (issue s.cfg (.orientation o)) (fun t => t)
  else .next (s.raise .illegalCommand)

end Sys2Proof.Machine
end

