-- ==== Sys2Proof/Machine/Dispatch.lean ====
section
/-! DEFINITION. One arm per operation of the opcode map (30_encoding.md R63). -/

namespace Sys2Proof.Machine

def exec (i : Instr) (s : State) : Host.Outcome State Fault Refusal :=
  match i with
  | .init o => Sys2Proof.Machine.execInit o s
  | .setOrientation o => Sys2Proof.Machine.execSetOrientation o s
  | .fbClear color => Sys2Proof.Machine.execFbClear color s
  | .fbWritePixel x y color => Sys2Proof.Machine.execFbWritePixel x y color s
  | .fbReadPixel x y => Sys2Proof.Machine.execFbReadPixel x y s
  | .fbCopyRegion sx0 sy0 sx1 sy1 dx dy srcW srcH => Sys2Proof.Machine.execFbCopyRegion sx0 sy0 sx1 sy1 dx dy srcW srcH s
  | .showPanel => Sys2Proof.Machine.execShowPanel s
  | .showRegion x0 y0 x1 y1 => Sys2Proof.Machine.execShowRegion x0 y0 x1 y1 s
  | .drawImage x0 y0 x1 y1 len => Sys2Proof.Machine.execDrawImage x0 y0 x1 y1 len s

end Sys2Proof.Machine
end

