-- ==== Sys2Proof/Machine/Step.lean ====
section
/-! DEFINITION. One step (00_scope.md R8): the DFE takes the host's next input. A packet is decoded and its operation run to
completion, or refused when illegal (30_encoding.md R60, R68); a block reset is taken (70_reset_and_hazards.md R200); with
no input the DFE waits. -/

namespace Sys2Proof.Machine

def step (s : State) : Host.Outcome State Fault Refusal :=
  match s.host with
  | [] => .next s
  | .blockReset :: later => .next (s.blockReset later)
  | .packet p :: later =>
    match decode p.words with
    | .op i => exec i (s.accept p later)
    | .illegal _ => .next (s.accept p later).refusePacket

/-- The packet of a table word, without side data, as the host's very next input; the host's other inputs come after it
(log 7, log 16). -/
def State.withFetchWord (s : State) (nbits w : Nat) : State :=
  { s with host := .packet ⟨tablePacket nbits w, [], []⟩ :: s.host }

end Sys2Proof.Machine
end

