-- ==== Sys2Proof/Safety.lean ====
section
/-! DEFINITION. What holds of the DFE between two operations (10_state.md R33), and the words the statements are written in:
frames, environments, and the event sequences of the rules spelled out. -/

namespace Sys2Proof.Machine

/-- Every listed framebuffer address is below `N_PIX` (R22, R33: `len(FB) = N_PIX`). -/
abbrev State.fbInRange (s : State) : Prop := ∀ c ∈ s.fb, c.1 < s.cfg.nPix

/-- `RST_LINE` is released, or it is active and the last INIT was aborted (R33). -/
abbrev State.lineOk (s : State) : Prop := s.rstLine = s.cfg.rstActive → s.seq = .failed

/-- The invariant of the DFE between two operations (R33; R40 for the side data): the framebuffer's list is canonical and
within `N_PIX`, `SEQ_STATE` is one of UNINIT, READY, FAILED, the reset line is released unless an INIT failed, and no side
data is held. -/
structure State.Inv (s : State) : Prop where
  canonical : fbWf s.fb = true
  inRange : s.fbInRange
  settled : seqSettled s.seq = true
  line : s.lineOk
  noSrc : s.src = []
  noImg : s.img = []

end Sys2Proof.Machine

namespace Sys2Proof.Claims

open Sys2Proof Sys2Proof.Machine

/-! ### Words the statements use -/

/-- An operation that touched nothing but the framebuffer and the response port; the side data is gone (R40). -/
abbrev KeptButFb (s t : State) : Prop :=
  t.cfg = s.cfg ∧ t.seq = s.seq ∧ t.rstLine = s.rstLine ∧ t.trace = s.trace ∧ t.host = s.host ∧ t.acks = s.acks ∧
  t.answersLeft = s.answersLeft ∧ t.src = [] ∧ t.img = []

/-- An operation that had no effect but its response. -/
abbrev NoEffect (s t : State) : Prop := KeptButFb s t ∧ t.fb = s.fb

/-- A bus operation's frame: the framebuffer, the configuration and the host's later inputs are as before. -/
abbrev KeptButBus (s t : State) : Prop :=
  t.cfg = s.cfg ∧ t.fb = s.fb ∧ t.host = s.host ∧ t.src = [] ∧ t.img = []

/-- Events all acknowledged OK. -/
def acked (es : List Event) : List BusRecord := es.map fun e => ⟨e, .ok⟩

/-- Events up to and with the one that gets the `k`-th answer of the transport (counted from 0), that answer being ERR and
the others OK; a DELAY event gets OK and takes no answer (R78). -/
def failAt : Nat → List Event → List BusRecord
  | _, [] => []
  | k, .delay d :: es => ⟨.delay d, .ok⟩ :: failAt k es
  | 0, e :: _ => [⟨e, .err⟩]
  | k + 1, e :: es => ⟨e, .ok⟩ :: failAt k es

/-- How many of the events the transport answers (R78: all but the DELAY events). -/
def answerCount (es : List Event) : Nat := (es.filter fun e => !isDelay e).length

/-- The environment always answers (R212), and the transport acknowledges the next `n` of its events OK. -/
abbrev AllOk (s : State) (n : Nat) : Prop := s.answersLeft = none ∧ s.acks.take n = List.replicate n .ok

/-- The environment always answers, and the transport acknowledges the next `k` events OK and the one after them ERR. -/
abbrev FailsAt (s : State) (k : Nat) : Prop :=
  s.answersLeft = none ∧ s.acks.take (k + 1) = List.replicate k .ok ++ [.err]

/-- A u16 as two DATA events, most significant byte first (R47). -/
def bigEndian (n : Nat) : List Event := [.data (BitVec.ofNat 8 (n / 256)), .data (BitVec.ofNat 8 (n % 256))]

/-- The events of an INIT that runs to its end (R101 with R102, R103, R104, R106, R107). -/
def initSequence (c : Config) (o : Orientation) : List Event :=
  [Event.rst c.rstActive, Event.delay .rstHold, Event.rst (1 - c.rstActive), Event.delay .rstSettle,
    Event.cmd c.opSlpout, Event.delay .wake, Event.cmd c.opColmod, Event.data c.colmodRgb565, Event.cmd c.opMadctl,
    Event.data (c.madctlVal o)] ++
  (c.tuning.flatMap fun e => Event.cmd e.command :: e.params.map Event.data) ++
  [Event.cmd c.opDispon, Event.delay .dispon]

/-- The addressing-window command pair and the memory-write command for columns `xs` to `xe` and rows `ys` to `ye`, both
inclusive (R95, R96, R97, R152). -/
def windowSequence (c : Config) (xs xe ys ye : Nat) : List Event :=
  [Event.cmd c.opCaset] ++ bigEndian xs ++ bigEndian xe ++ [Event.cmd c.opRaset] ++ bigEndian ys ++ bigEndian ye ++
  [Event.cmd c.opRamwr]

/-- The bytes of a framebuffer rectangle, row-major, most significant byte first (R147, R150). -/
def fbPixelSequence (s : State) (x0 y0 w h : Nat) : List Event :=
  (List.range h).flatMap fun j => (List.range w).flatMap fun i =>
    bigEndian (s.fbRead ((y0 + j) * s.cfg.fbW.toNat + (x0 + i))).toNat

/-- The bytes of the upper left `w` by `h` pixels of an image of row stride `stride` (R143, R151). -/
def imgPixelSequence (img : List Byte) (stride w h : Nat) : List Event :=
  (List.range h).flatMap fun j => (List.range w).flatMap fun i =>
    [.data (img.getD (2 * (j * stride + i)) 0), .data (img.getD (2 * (j * stride + i) + 1) 0)]

/-- The level the last RST event of some records drives, or the level before them (R26). -/
def lineAfter (l : BitVec 1) : List BusRecord → BitVec 1
  | [] => l
  | ⟨.rst k, _⟩ :: rest => lineAfter k rest
  | ⟨_, _⟩ :: rest => lineAfter l rest

/-- The statuses R180 lets an operation raise. -/
def allowedStatuses : Instr → List Status
  | .init _ => [.ok, .transportError, .illegalCommand]
  | .setOrientation _ => [.ok, .transportError, .illegalCommand]
  | .fbClear _ => [.ok]
  | .fbWritePixel _ _ _ => [.ok, .outOfBounds]
  | .fbReadPixel _ _ => [.ok, .outOfBounds]
  | .fbCopyRegion _ _ _ _ _ _ _ _ => [.ok, .invalidRegion, .outOfBounds]
  | .showPanel => [.ok, .outOfBounds, .transportError]
  | .showRegion _ _ _ _ => [.ok, .invalidRegion, .outOfBounds, .transportError]
  | .drawImage _ _ _ _ _ => [.ok, .invalidRegion, .outOfBounds, .transportError]

/-- INIT, the one operation that writes `SEQ_STATE` and `RST_LINE`. -/
def isInit : Instr → Bool
  | .init _ => true
  | _ => false

/-- The operations that write framebuffer words (R20). -/
def writesFb : Instr → Bool
  | .fbClear _ => true
  | .fbWritePixel _ _ _ => true
  | .fbCopyRegion _ _ _ _ _ _ _ _ => true
  | _ => false

/-- The framebuffer family (R120). -/
def isFramebufferOp : Instr → Bool
  | .fbClear _ => true
  | .fbWritePixel _ _ _ => true
  | .fbReadPixel _ _ => true
  | .fbCopyRegion _ _ _ _ _ _ _ _ => true
  | _ => false

/-- FB_READ_PIXEL, the one operation whose response may hold RDATA (R70). -/
def isReadPixel : Instr → Bool
  | .fbReadPixel _ _ => true
  | _ => false

/-- The lengths of R63 by `OPC`; none for a value not in the table. -/
def lengthOfOpc (opc : Nat) : Option Nat :=
  if opc = 0x01 then some 1 else if opc = 0x02 then some 1 else if opc = 0x10 then some 2
  else if opc = 0x11 then some 4 else if opc = 0x12 then some 3 else if opc = 0x13 then some 9
  else if opc = 0x20 then some 1 else if opc = 0x21 then some 5 else if opc = 0x22 then some 7 else none

end Sys2Proof.Claims
end

