-- ==== Sys2Proof/Certificates/Slice0/Obligations.lean ====
section
/-! DEFINITION. The statements for the provers, each formalising rules of the spec. The words they are written in stand in
Sys2Proof/Safety.lean. -/

open Sys2Proof Sys2Proof.Machine Sys2Proof.Claims

/-! ### Encoding -/

/-- Decoding the encoding of an operation gives it back, every operand at every value (R61, R62, R63). -/
def Obligations.DecodeOfEncode : Prop := ∀ i : Instr, decode (encode i) = .op i

/-- No operation has two encodings (R69, its last sentence). -/
def Obligations.DecodedPacketIsTheEncoding : Prop := ∀ (ws : List Word) (i : Instr), decode ws = .op i → encode i = ws

/-- Which packets of at least one word are illegal (R67, R68, R64, R63): an `OPC` not in the map, a wrong length, `RSV` not
0, or `ORI` not 0 where the operation carries no orientation. -/
def Obligations.IllegalPacketsAreTheListedOnes : Prop :=
  ∀ (h : Word) (ops : List Word),
    (∃ why, decode (h :: ops) = .illegal why) ↔
      (lengthOfOpc (h.toNat / 256) ≠ some (ops.length + 1) ∨ h.toNat / 4 % 64 ≠ 0 ∨
        (h.toNat / 256 ≠ 0x01 ∧ h.toNat / 256 ≠ 0x02 ∧ h.toNat % 4 ≠ 0))

/-- Words of R63 and of 95_test_vectors.md V1, written out, and what they decode to. -/
def Obligations.WordsOfTheOpcodeMapDecode : Prop :=
  decode [0x0103] = .op (.init .landscapeInverted) ∧
  decode [0x0202] = .op (.setOrientation .portraitInverted) ∧
  decode [0x1000, 0xF800] = .op (.fbClear 0xF800) ∧
  decode [0x1100, 2, 1, 0xF800] = .op (.fbWritePixel 2 1 0xF800) ∧
  decode [0x1200, 2, 1] = .op (.fbReadPixel 2 1) ∧
  decode [0x1300, 1, 2, 3, 4, 5, 6, 7, 8] = .op (.fbCopyRegion 1 2 3 4 5 6 7 8) ∧
  decode [0x2000] = .op .showPanel ∧
  decode [0x2100, 6, 4, 10, 9] = .op (.showRegion 6 4 10 9) ∧
  decode [0x2200, 0, 0, 1, 1, 0x0001, 0x0000] = .op (.drawImage 0 0 1 1 65536)

/-- Every operation can be written in the assembler syntax and assembles to its packet (R72), and CLEAR_SCREEN assembles to
FB_CLEAR's packet (R73). -/
def Obligations.AssemblerGivesThePacket : Prop :=
  (∀ i : Instr, assemble (asmLine i) = some (encode i)) ∧
  (∀ c : Word, assemble ⟨.clearScreen, [.num c.toNat]⟩ = some [0x1000, c])

/-! ### Codes, bytes and addresses -/

/-- The layout of `RESP` (R70): STATUS in bits 3:0, 0 in 7:4, SEQ in 11:8, 0 in 15:12, with the codes of R180 and R24. -/
def Obligations.ResponseWordLayout : Prop :=
  ∀ (st : Status) (q : SeqState),
    (respWord st q).extractLsb' 0 4 = statusCode st ∧ (respWord st q).extractLsb' 4 4 = 0 ∧
    (respWord st q).extractLsb' 8 4 = seqCode q ∧ (respWord st q).extractLsb' 12 4 = 0 ∧
    statusCode .ok = 0 ∧ statusCode .transportError = 1 ∧ statusCode .outOfBounds = 2 ∧ statusCode .invalidRegion = 3 ∧
    statusCode .illegalCommand = 4 ∧ seqCode .uninit = 0 ∧ seqCode .ready = 1 ∧ seqCode .failed = 2

/-- The unpacker (R150) sends the high byte first and loses nothing, and the fields of R149 are the whole pixel. -/
def Obligations.UnpackAndPixelFields : Prop :=
  ∀ v : Word, unpack v = [BitVec.ofNat 8 (v.toNat / 256), BitVec.ofNat 8 (v.toNat % 256)] ∧
    (pixelRed v).toNat = v.toNat / 2048 ∧ (pixelGreen v).toNat = v.toNat / 32 % 64 ∧ (pixelBlue v).toNat = v.toNat % 32

/-- The address decoder (R43): `y * FB_W + x` inside the framebuffer, OOB elsewhere, never clamped or wrapped. -/
def Obligations.AddressDecoder : Prop :=
  ∀ (c : Config) (x y : Word),
    fbAddr c x y = if x.toNat < c.fbW.toNat ∧ y.toNat < c.fbH.toNat then some (y.toNat * c.fbW.toNat + x.toNat) else none

/-- The decoder is a bijection from the coordinates in bounds onto the word addresses, with the inverse of R44. -/
def Obligations.AddressDecoderIsABijection : Prop :=
  ∀ c : Config,
    (∀ (x y : Word) (a : Nat), fbAddr c x y = some a → a < c.nPix ∧ fbCoord c a = (x.toNat, y.toNat)) ∧
    (∀ (x y x' y' : Word) (a : Nat), fbAddr c x y = some a → fbAddr c x' y' = some a → x = x' ∧ y = y') ∧
    (∀ a : Nat, a < c.nPix → ∃ x y : Word, fbAddr c x y = some a)

/-- The command encoder's catalog (R91 with R92 to R99): each entry's command byte and parameter bytes. That
the colour mode and the orientation have one parameter byte each is the spec's own choice from general knowledge (D7, K4;
log 19, PRESUMED). -/
def Obligations.CommandEncoderCatalog : Prop :=
  ∀ c : Config,
    issueEvents c .sleepOut = [.cmd c.opSlpout] ∧
    issueEvents c .colorModeRgb565 = [.cmd c.opColmod, .data c.colmodRgb565] ∧
    (∀ o, issueEvents c (.orientation o) = [.cmd c.opMadctl, .data (c.madctlVal o)]) ∧
    (∀ xs xe : Word, issueEvents c (.columnRange xs xe) = .cmd c.opCaset :: (bigEndian xs.toNat ++ bigEndian xe.toNat)) ∧
    (∀ ys ye : Word, issueEvents c (.rowRange ys ye) = .cmd c.opRaset :: (bigEndian ys.toNat ++ bigEndian ye.toNat)) ∧
    issueEvents c .memoryWrite = [.cmd c.opRamwr] ∧
    issueEvents c .displayOn = [.cmd c.opDispon] ∧
    (∀ e : TuningEntry, issueEvents c (.tuning e) = .cmd e.command :: e.params.map .data)

/-! ### Steps and reset -/

/-- A step with a packet of the host first among its inputs that decodes to an operation runs exactly that operation, on the
state that has taken the packet: its side data present, the host's later inputs waiting (R60, R79; the list of inputs is the model's, log 7). -/
def Obligations.StepRunsTheDecodedOperation : Prop :=
  ∀ (s : State) (p : Packet) (later : List HostInput) (i : Instr),
    s.host = .packet p :: later → decode p.words = .op i →
      step s = exec i { s with src := p.src, img := p.img, host := later }

/-- An illegal packet is refused with no effect and the response IllegalCommand (R68). The packet of no words, which R60 does
not have, is among them by the model's choice (log 11, DESIGN CHOICE). -/
def Obligations.IllegalPacketHasNoEffect : Prop :=
  ∀ (s : State) (p : Packet) (later : List HostInput) (why : Reject),
    s.host = .packet p :: later → decode p.words = .illegal why →
      ∃ t, step s = .next t ∧ t.response = [respWord .illegalCommand s.seq] ∧
        NoEffect { s with host := later } t

/-- With no input the DFE waits: nothing changes. The model's choice (log 7): R200 says the DFE "waits for its first
packet", R209 that it takes one packet at a time. -/
def Obligations.StepWithoutInputWaits : Prop := ∀ s : State, s.host = [] → step s = .next s

/-- Each step takes the host's first input and leaves the later ones waiting (R60, R209; log 7). -/
def Obligations.StepTakesOneInput : Prop :=
  ∀ (s t : State) (x : HostInput) (later : List HostInput), s.host = x :: later → step s = .next t → t.host = later

/-- A block reset leaves the state of R200 and R201 under the same configuration: every framebuffer word undefined,
UNINIT, the reset line released, the trace empty. It emits no bus event. That it comes between operations and leaves the
host's later inputs waiting is the model's choice (log 13). -/
def Obligations.BlockResetLeavesTheResetState : Prop :=
  ∀ (s : State) (later : List HostInput), s.host = .blockReset :: later →
    ∃ t, step s = .next t ∧ (∀ a, fbLookup t.fb a = none) ∧ t.seq = .uninit ∧ t.rstLine = 1 - s.cfg.rstActive ∧
      t.trace = [] ∧ t.cfg = s.cfg ∧ t.host = later

/-- The state after block reset (R201) of an instance of any configuration. -/
def Obligations.ResetValues : Prop :=
  ∀ c : Config, (∀ a, fbLookup (State.resetOf c).fb a = none) ∧ seqCode (State.resetOf c).seq = 0 ∧
    (State.resetOf c).rstLine = 1 - c.rstActive ∧ (State.resetOf c).trace = [] ∧ (State.resetOf c).cfg = c

/-- The state after block reset meets the invariant of R33, in every configuration, and so does `State.reset`, whose
configuration is the model's choice (log 3). -/
def Obligations.ResetMeetsTheInvariant : Prop := (∀ c : Config, (State.resetOf c).Inv) ∧ State.reset.Inv

/-! ### INIT and SET_ORIENTATION -/

/-- INIT with a supported orientation, every event acknowledged: the events of steps 1 to 5 in order, `SEQ_STATE` READY, the
line released, STATUS OK, and nothing else changed (R101 to R108). The exact events rest on the one parameter byte of the
colour mode and orientation commands, the spec's own choice from general knowledge (R93, R94, D7, K4; log 19, PRESUMED). -/
def Obligations.InitRunsToReady : Prop :=
  ∀ (s : State) (o : Orientation), o ∈ s.cfg.supported → AllOk s (answerCount (initSequence s.cfg o)) →
    ∃ t, exec (.init o) s = .next t ∧ t.trace = s.trace ++ acked (initSequence s.cfg o) ∧ t.seq = .ready ∧
      t.rstLine = 1 - s.cfg.rstActive ∧ t.response = [respWord .ok .ready] ∧ KeptButBus s t ∧
      t.acks = s.acks.drop (answerCount (initSequence s.cfg o)) ∧ t.answersLeft = none

/-- The number of events of a completed INIT (R111). The 12 rests on the one parameter byte of the colour mode and orientation
commands, the spec's own choice from general knowledge (D7, K4; log 19, PRESUMED). -/
def Obligations.InitEventCount : Prop :=
  ∀ (s : State) (o : Orientation), o ∈ s.cfg.supported → AllOk s (answerCount (initSequence s.cfg o)) →
    ∃ t, exec (.init o) s = .next t ∧
      t.trace.length = s.trace.length + 12 + (s.cfg.tuning.map fun e => 1 + e.params.length).sum

/-- INIT with an event acknowledged ERR emits nothing more, leaves `SEQ_STATE` FAILED and the line at the level last
written (active when the first event failed, R33), and responds TransportError (R110). Which events come before the failing one
(R101) rests on the one parameter byte of the colour mode and orientation commands, the spec's own choice from general
knowledge (R93, R94, D7, K4; log 19, PRESUMED). -/
def Obligations.InitAbortsToFailed : Prop :=
  ∀ (s : State) (o : Orientation) (k : Nat), o ∈ s.cfg.supported → k < answerCount (initSequence s.cfg o) → FailsAt s k →
    ∃ t, exec (.init o) s = .next t ∧ t.trace = s.trace ++ failAt k (initSequence s.cfg o) ∧ t.seq = .failed ∧
      t.rstLine = (if k = 0 then s.cfg.rstActive else 1 - s.cfg.rstActive) ∧
      t.response = [respWord .transportError .failed] ∧ KeptButBus s t ∧
      t.acks = s.acks.drop (k + 1) ∧ t.answersLeft = none

/-- INIT runs the same from every `SEQ_STATE` and every level of the line: no state of an earlier INIT is resumed (R109). -/
def Obligations.InitRestartsFromTheTop : Prop :=
  ∀ (s : State) (o : Orientation) (q : SeqState) (l : BitVec 1), o ∈ s.cfg.supported →
    exec (.init o) { s with seq := q, rstLine := l } = exec (.init o) s

/-- INIT and SET_ORIENTATION with an unsupported orientation are refused before any effect with IllegalCommand (R115). -/
def Obligations.UnsupportedOrientationIsRefused : Prop :=
  ∀ (s : State) (o : Orientation), o ∉ s.cfg.supported →
    (∃ t, exec (.init o) s = .next t ∧ t.response = [respWord .illegalCommand s.seq] ∧ NoEffect s t) ∧
    (∃ t, exec (.setOrientation o) s = .next t ∧ t.response = [respWord .illegalCommand s.seq] ∧ NoEffect s t)

/-- SET_ORIENTATION (R112): the orientation command's two events and nothing else, in every `SEQ_STATE` (R113). That
they are two rests on the one parameter byte of that command, the spec's own choice from general knowledge (R94, D7, K4;
log 19, PRESUMED). -/
def Obligations.SetOrientationSendsTheCommand : Prop :=
  ∀ (s : State) (o : Orientation), o ∈ s.cfg.supported → AllOk s 2 →
    ∃ t, exec (.setOrientation o) s = .next t ∧
      t.trace = s.trace ++ acked [.cmd s.cfg.opMadctl, .data (s.cfg.madctlVal o)] ∧
      t.response = [respWord .ok s.seq] ∧ t.seq = s.seq ∧ t.rstLine = s.rstLine ∧ KeptButBus s t ∧
      t.acks = s.acks.drop 2 ∧ t.answersLeft = none

/-- SET_ORIENTATION with its first or second event acknowledged ERR: TransportError, nothing more emitted, and `SEQ_STATE`,
`RST_LINE` and the framebuffer unchanged (R112, R184). That the events are two rests on the one parameter byte of that
command, the spec's own choice from general knowledge (R94, D7, K4; log 19, PRESUMED). -/
def Obligations.SetOrientationTransportError : Prop :=
  ∀ (s : State) (o : Orientation) (k : Nat), o ∈ s.cfg.supported → k < 2 → FailsAt s k →
    ∃ t, exec (.setOrientation o) s = .next t ∧
      t.trace = s.trace ++ failAt k [.cmd s.cfg.opMadctl, .data (s.cfg.madctlVal o)] ∧
      t.response = [respWord .transportError s.seq] ∧ t.seq = s.seq ∧ t.rstLine = s.rstLine ∧ KeptButBus s t ∧
      t.acks = s.acks.drop (k + 1) ∧ t.answersLeft = none

/-! ### Framebuffer operations -/

/-- FB_CLEAR (R121): its packet, and its effect: every framebuffer word becomes the colour, every other address is as before,
status OK. -/
def Obligations.FbClearWritesEveryWord : Prop :=
  ∀ (s : State) (c : Word), encode (.fbClear c) = [0x1000, c] ∧ ∃ t, exec (.fbClear c) s = .next t ∧ (∀ a, a < s.cfg.nPix → fbLookup t.fb a = some c) ∧
    (∀ a, s.cfg.nPix ≤ a → fbLookup t.fb a = fbLookup s.fb a) ∧ t.response = [respWord .ok s.seq] ∧ KeptButFb s t

/-- Clearing twice with a colour leaves the state of clearing once, but for the model's count of draws (R127; log 10). -/
def Obligations.FbClearIsIdempotent : Prop :=
  ∀ (s : State) (c : Word), fbWf s.fb = true →
    ∃ t u, exec (.fbClear c) s = .next t ∧ exec (.fbClear c) t = .next u ∧ u = { t with draws := t.draws + 1 }

/-- FB_WRITE_PIXEL in bounds (R122): the one word at `y * FB_W + x` is written, every other word is as before. -/
def Obligations.FbWritePixelWritesOneWord : Prop :=
  ∀ (s : State) (x y c : Word), x.toNat < s.cfg.fbW.toNat → y.toNat < s.cfg.fbH.toNat →
    ∃ t, exec (.fbWritePixel x y c) s = .next t ∧ fbLookup t.fb (y.toNat * s.cfg.fbW.toNat + x.toNat) = some c ∧
      (∀ a, a ≠ y.toNat * s.cfg.fbW.toNat + x.toNat → fbLookup t.fb a = fbLookup s.fb a) ∧
      t.response = [respWord .ok s.seq] ∧ KeptButFb s t

/-- FB_READ_PIXEL in bounds (R123): the response is `[RESP, RDATA]` with the word at `y * FB_W + x`, a free value when it is
undefined; nothing is written. -/
def Obligations.FbReadPixelReturnsTheWord : Prop :=
  ∀ (s : State) (x y : Word), x.toNat < s.cfg.fbW.toNat → y.toNat < s.cfg.fbH.toNat →
    ∃ t v, exec (.fbReadPixel x y) s = .next t ∧ t.response = [respWord .ok s.seq, v] ∧
      (∀ d, fbLookup s.fb (y.toNat * s.cfg.fbW.toNat + x.toNat) = some d → v = d) ∧
      (fbLookup s.fb (y.toNat * s.cfg.fbW.toNat + x.toNat) = none →
        v = Config.freeWord s.draws (y.toNat * s.cfg.fbW.toNat + x.toNat)) ∧ NoEffect s t

/-- FB_WRITE_PIXEL and FB_READ_PIXEL out of bounds: OutOfBounds, no RDATA, no effect (R122, R123, R43). -/
def Obligations.OutOfBoundsPixelHasNoEffect : Prop :=
  ∀ (s : State) (x y c : Word), s.cfg.fbW.toNat ≤ x.toNat ∨ s.cfg.fbH.toNat ≤ y.toNat →
    (∃ t, exec (.fbWritePixel x y c) s = .next t ∧ t.response = [respWord .outOfBounds s.seq] ∧ NoEffect s t) ∧
    (∃ t, exec (.fbReadPixel x y) s = .next t ∧ t.response = [respWord .outOfBounds s.seq] ∧ NoEffect s t)

/-- Write then read (R126), as the host sees it: two packets, two steps, and the colour comes back. -/
def Obligations.WriteThenReadPacketsReturnTheColour : Prop :=
  ∀ (s : State) (x y c : Word) (later : List HostInput), x.toNat < s.cfg.fbW.toNat → y.toNat < s.cfg.fbH.toNat →
    s.host = .packet ⟨encode (.fbWritePixel x y c), [], []⟩ :: .packet ⟨encode (.fbReadPixel x y), [], []⟩ :: later →
    ∃ t u, step s = .next t ∧ step t = .next u ∧ t.response = [respWord .ok s.seq] ∧ u.response = [respWord .ok s.seq, c]

/-- The checks of FB_COPY_REGION in their order (R125): inverted, zero area, source extent, destination extent; each ends
the operation with no effect but its status. -/
def Obligations.CopyRegionChecksInOrder : Prop :=
  ∀ (s : State) (sx0 sy0 sx1 sy1 dx dy srcW srcH : Word) (st : Status),
    (if sx1.toNat < sx0.toNat ∨ sy1.toNat < sy0.toNat then st = .invalidRegion
     else if sx0 = sx1 ∨ sy0 = sy1 then st = .ok
     else (srcW.toNat < sx1.toNat ∨ srcH.toNat < sy1.toNat ∨
         s.cfg.fbW.toNat < dx.toNat + (sx1.toNat - sx0.toNat) ∨ s.cfg.fbH.toNat < dy.toNat + (sy1.toNat - sy0.toNat)) ∧
       st = .outOfBounds) →
    ∃ t, exec (.fbCopyRegion sx0 sy0 sx1 sy1 dx dy srcW srcH) s = .next t ∧ t.response = [respWord st s.seq] ∧ NoEffect s t

/-- A copy that passes its checks (R124, R128): every word of the destination rectangle is the `SRC` word of its place, every
other word is as before, status OK. -/
def Obligations.CopyRegionCopiesTheBlock : Prop :=
  ∀ (s : State) (sx0 sy0 sx1 sy1 dx dy srcW srcH : Word),
    sx0.toNat < sx1.toNat → sy0.toNat < sy1.toNat → sx1.toNat ≤ srcW.toNat → sy1.toNat ≤ srcH.toNat →
    dx.toNat + (sx1.toNat - sx0.toNat) ≤ s.cfg.fbW.toNat → dy.toNat + (sy1.toNat - sy0.toNat) ≤ s.cfg.fbH.toNat →
    s.src.length = srcW.toNat * srcH.toNat →
    ∃ t, exec (.fbCopyRegion sx0 sy0 sx1 sy1 dx dy srcW srcH) s = .next t ∧
      (∀ i j, i < sx1.toNat - sx0.toNat → j < sy1.toNat - sy0.toNat →
        fbLookup t.fb ((dy.toNat + j) * s.cfg.fbW.toNat + (dx.toNat + i)) =
          s.src[(sy0.toNat + j) * srcW.toNat + (sx0.toNat + i)]?) ∧
      (∀ a, (∀ i j, i < sx1.toNat - sx0.toNat → j < sy1.toNat - sy0.toNat →
          a ≠ (dy.toNat + j) * s.cfg.fbW.toNat + (dx.toNat + i)) → fbLookup t.fb a = fbLookup s.fb a) ∧
      t.response = [respWord .ok s.seq] ∧ KeptButFb s t

/-! ### Region operations -/

/-- The checks of SHOW_REGION and DRAW_IMAGE that end them before any event, in their order (R141, R142, R144): inverted,
zero area, entirely outside the panel. -/
def Obligations.RegionChecksBeforeTheBuffer : Prop :=
  ∀ (s : State) (x0 y0 x1 y1 : Word) (len : BitVec 32) (st : Status),
    (if x1.toNat < x0.toNat ∨ y1.toNat < y0.toNat then st = .invalidRegion
     else if x0 = x1 ∨ y0 = y1 then st = .ok
     else (s.cfg.panelW.toNat ≤ x0.toNat ∨ s.cfg.panelH.toNat ≤ y0.toNat) ∧ st = .outOfBounds) →
    (∃ t, exec (.showRegion x0 y0 x1 y1) s = .next t ∧ t.response = [respWord st s.seq] ∧ NoEffect s t) ∧
    (∃ t, exec (.drawImage x0 y0 x1 y1 len) s = .next t ∧ t.response = [respWord st s.seq] ∧ NoEffect s t)

/-- A region that starts on the panel and, clamped to it, exceeds its source buffer is OutOfBounds with no event (R145): the
framebuffer for SHOW_REGION, the whole rows of the image for DRAW_IMAGE. -/
def Obligations.RegionBeyondItsBufferIsOutOfBounds : Prop :=
  ∀ (s : State) (x0 y0 x1 y1 : Word) (len : BitVec 32), x0.toNat < x1.toNat → y0.toNat < y1.toNat →
    x0.toNat < s.cfg.panelW.toNat → y0.toNat < s.cfg.panelH.toNat →
    (s.cfg.fbW.toNat < min x1.toNat s.cfg.panelW.toNat ∨ s.cfg.fbH.toNat < min y1.toNat s.cfg.panelH.toNat →
      ∃ t, exec (.showRegion x0 y0 x1 y1) s = .next t ∧ t.response = [respWord .outOfBounds s.seq] ∧ NoEffect s t) ∧
    (len.toNat / (2 * (x1.toNat - x0.toNat)) < min y1.toNat s.cfg.panelH.toNat - y0.toNat →
      ∃ t, exec (.drawImage x0 y0 x1 y1 len) s = .next t ∧ t.response = [respWord .outOfBounds s.seq] ∧ NoEffect s t)

/-- SHOW_REGION of a region that passes its checks, every event acknowledged: the window pair, the memory-write command,
and the clamped region's pixels row-major, most significant byte first (R152, R153). The inclusive window end is the spec's
own choice, marked as general knowledge (R146, D21; log 19). -/
def Obligations.ShowRegionStreamsTheClampedRegion : Prop :=
  ∀ (s : State) (x0 y0 x1 y1 : Word) (x1c y1c : Nat), x0.toNat < x1.toNat → y0.toNat < y1.toNat →
    x0.toNat < s.cfg.panelW.toNat → y0.toNat < s.cfg.panelH.toNat →
    x1c = min x1.toNat s.cfg.panelW.toNat → y1c = min y1.toNat s.cfg.panelH.toNat →
    x1c ≤ s.cfg.fbW.toNat → y1c ≤ s.cfg.fbH.toNat →
    AllOk s (11 + 2 * ((x1c - x0.toNat) * (y1c - y0.toNat))) →
    ∃ t, exec (.showRegion x0 y0 x1 y1) s = .next t ∧
      t.trace = s.trace ++ acked (windowSequence s.cfg x0.toNat (x1c - 1) y0.toNat (y1c - 1) ++
        fbPixelSequence s x0.toNat y0.toNat (x1c - x0.toNat) (y1c - y0.toNat)) ∧
      t.response = [respWord .ok s.seq] ∧ t.seq = s.seq ∧ t.rstLine = s.rstLine ∧ KeptButBus s t ∧
      t.acks = s.acks.drop (11 + 2 * ((x1c - x0.toNat) * (y1c - y0.toNat))) ∧ t.answersLeft = none

/-- SHOW is SHOW_REGION of the whole panel (R154). -/
def Obligations.ShowIsShowRegionOfThePanel : Prop :=
  ∀ s : State, exec .showPanel s = exec (.showRegion 0 0 s.cfg.panelW s.cfg.panelH) s

/-- SHOW with a framebuffer at least as large as the panel, every event acknowledged: the window of the whole panel and
every panel pixel of the framebuffer (R154). Inclusive window end as in log 19. -/
def Obligations.ShowStreamsThePanel : Prop :=
  ∀ s : State, 1 ≤ s.cfg.panelW.toNat → 1 ≤ s.cfg.panelH.toNat → s.cfg.panelW.toNat ≤ s.cfg.fbW.toNat →
    s.cfg.panelH.toNat ≤ s.cfg.fbH.toNat → AllOk s (11 + 2 * (s.cfg.panelW.toNat * s.cfg.panelH.toNat)) →
    ∃ t, exec .showPanel s = .next t ∧
      t.trace = s.trace ++ acked (windowSequence s.cfg 0 (s.cfg.panelW.toNat - 1) 0 (s.cfg.panelH.toNat - 1) ++
        fbPixelSequence s 0 0 s.cfg.panelW.toNat s.cfg.panelH.toNat) ∧
      t.response = [respWord .ok s.seq] ∧ t.seq = s.seq ∧ t.rstLine = s.rstLine ∧ KeptButBus s t ∧
      t.acks = s.acks.drop (11 + 2 * (s.cfg.panelW.toNat * s.cfg.panelH.toNat)) ∧ t.answersLeft = none

/-- SHOW on a framebuffer smaller than the panel is OutOfBounds with no event (R154). -/
def Obligations.ShowOfASmallFramebufferIsOutOfBounds : Prop :=
  ∀ s : State, 1 ≤ s.cfg.panelW.toNat → 1 ≤ s.cfg.panelH.toNat →
    s.cfg.fbW.toNat < s.cfg.panelW.toNat ∨ s.cfg.fbH.toNat < s.cfg.panelH.toNat →
    ∃ t, exec .showPanel s = .next t ∧ t.response = [respWord .outOfBounds s.seq] ∧ NoEffect s t

/-- DRAW_IMAGE of a region that passes its checks, with an image of the length its packet says and every event acknowledged:
the window of the clamped region and its pixels from the image, whose row stride is the unclamped width (R143, R151, R155).
Inclusive window end as in log 19. -/
def Obligations.DrawImageStreamsTheImage : Prop :=
  ∀ (s : State) (x0 y0 x1 y1 : Word) (len : BitVec 32) (x1c y1c : Nat), x0.toNat < x1.toNat → y0.toNat < y1.toNat →
    x0.toNat < s.cfg.panelW.toNat → y0.toNat < s.cfg.panelH.toNat →
    x1c = min x1.toNat s.cfg.panelW.toNat → y1c = min y1.toNat s.cfg.panelH.toNat →
    y1c - y0.toNat ≤ len.toNat / (2 * (x1.toNat - x0.toNat)) → s.img.length = len.toNat →
    AllOk s (11 + 2 * ((x1c - x0.toNat) * (y1c - y0.toNat))) →
    ∃ t, exec (.drawImage x0 y0 x1 y1 len) s = .next t ∧
      t.trace = s.trace ++ acked (windowSequence s.cfg x0.toNat (x1c - 1) y0.toNat (y1c - 1) ++
        imgPixelSequence s.img (x1.toNat - x0.toNat) (x1c - x0.toNat) (y1c - y0.toNat)) ∧
      t.response = [respWord .ok s.seq] ∧ t.seq = s.seq ∧ t.rstLine = s.rstLine ∧ KeptButBus s t ∧
      t.acks = s.acks.drop (11 + 2 * ((x1c - x0.toNat) * (y1c - y0.toNat))) ∧ t.answersLeft = none

/-- SHOW_REGION with an event acknowledged ERR: TransportError, the events up to and with the failing one in the trace, and
the framebuffer, `SEQ_STATE` and `RST_LINE` unchanged (R152, R184). Inclusive window end as in log 19. -/
def Obligations.ShowRegionTransportError : Prop :=
  ∀ (s : State) (x0 y0 x1 y1 : Word) (x1c y1c k : Nat), x0.toNat < x1.toNat → y0.toNat < y1.toNat →
    x0.toNat < s.cfg.panelW.toNat → y0.toNat < s.cfg.panelH.toNat →
    x1c = min x1.toNat s.cfg.panelW.toNat → y1c = min y1.toNat s.cfg.panelH.toNat →
    x1c ≤ s.cfg.fbW.toNat → y1c ≤ s.cfg.fbH.toNat →
    k < 11 + 2 * ((x1c - x0.toNat) * (y1c - y0.toNat)) → FailsAt s k →
    ∃ t, exec (.showRegion x0 y0 x1 y1) s = .next t ∧
      t.trace = s.trace ++ failAt k (windowSequence s.cfg x0.toNat (x1c - 1) y0.toNat (y1c - 1) ++
        fbPixelSequence s x0.toNat y0.toNat (x1c - x0.toNat) (y1c - y0.toNat)) ∧
      t.response = [respWord .transportError s.seq] ∧ t.seq = s.seq ∧ t.rstLine = s.rstLine ∧ KeptButBus s t ∧
      t.acks = s.acks.drop (k + 1) ∧ t.answersLeft = none

/-- The exact event shape of the region operations (R156): `11 + 2 * area` events when the status is OK and the region has
area, none when it has no area. -/
def Obligations.RegionEventCounts : Prop :=
  ∀ (s t : State) (x0 y0 x1 y1 : Word) (len : BitVec 32) (i : Instr),
    i = .showRegion x0 y0 x1 y1 ∨ i = .drawImage x0 y0 x1 y1 len → exec i s = .next t →
    t.response = [respWord .ok t.seq] →
      t.trace.length = s.trace.length +
        (if x0 = x1 ∨ y0 = y1 then 0
         else 11 + 2 * ((min x1.toNat s.cfg.panelW.toNat - x0.toNat) * (min y1.toNat s.cfg.panelH.toNat - y0.toNat)))

/-- The region operations change neither the framebuffer nor `SEQ_STATE` nor `RST_LINE` in any outcome and emit no DELAY
event (R159). -/
def Obligations.RegionOperationsWriteNothing : Prop :=
  ∀ (s t : State) (x0 y0 x1 y1 : Word) (len : BitVec 32) (i : Instr),
    i = .showPanel ∨ i = .showRegion x0 y0 x1 y1 ∨ i = .drawImage x0 y0 x1 y1 len → exec i s = .next t →
      t.fb = s.fb ∧ t.seq = s.seq ∧ t.rstLine = s.rstLine ∧
      ∃ new, t.trace = s.trace ++ new ∧ ∀ r ∈ new, isDelay r.event = false

/-- What a flush sends depends on the configuration and the framebuffer alone, when every word it may read is defined and
every event is acknowledged (R53): two such states send the same records, whatever else they differ in. -/
def Obligations.FlushDependsOnTheFramebufferAlone : Prop :=
  ∀ (s s' t t' : State) (x0 y0 x1 y1 : Word), s.cfg = s'.cfg → s.fb = s'.fb →
    (∀ a, a < s.cfg.nPix → (fbLookup s.fb a).isSome) →
    exec (.showRegion x0 y0 x1 y1) s = .next t → exec (.showRegion x0 y0 x1 y1) s' = .next t' →
    t.response = [respWord .ok t.seq] → t'.response = [respWord .ok t'.seq] →
      ∃ new, t.trace = s.trace ++ new ∧ t'.trace = s'.trace ++ new

/-! ### Rules over all operations -/

/-- Every response (R70) is `RESP` with a status the operation may raise (R180) and the `SEQ_STATE` after it, and a second
word exactly when the operation is FB_READ_PIXEL and the status is OK. -/
def Obligations.EveryOperationResponds : Prop :=
  ∀ (i : Instr) (s t : State), exec i s = .next t →
    ∃ st rdata, t.response = respWord st t.seq :: rdata ∧ st ∈ allowedStatuses i ∧
      rdata.length = if isReadPixel i = true ∧ st = .ok then 1 else 0

/-- What an ending status leaves (R184): OutOfBounds, InvalidRegion and IllegalCommand no effect at all; TransportError the
events up to and with the failing one, the framebuffer unchanged, `SEQ_STATE` FAILED for INIT and unchanged for any other
operation, `RST_LINE` at the level last written. -/
def Obligations.EndingStatusLeaves : Prop :=
  ∀ (i : Instr) (s t : State) (st : Status), exec i s = .next t → t.response.head? = some (respWord st t.seq) →
    (st = .outOfBounds ∨ st = .invalidRegion ∨ st = .illegalCommand → NoEffect s t) ∧
    (st = .transportError →
      t.fb = s.fb ∧ t.seq = (if isInit i then .failed else s.seq) ∧
      ∃ before e, t.trace = s.trace ++ (acked before ++ [⟨e, .err⟩]) ∧
        t.rstLine = lineAfter s.rstLine (acked before ++ [⟨e, .err⟩]))

/-- Only INIT changes `RST_LINE`, and every change is also a RST event (R26): after any operation the line is at the level of
its last RST event, and for every operation but INIT it is as before. -/
def Obligations.ResetLineFollowsTheTrace : Prop :=
  ∀ (i : Instr) (s t : State), exec i s = .next t →
    (∃ new, t.trace = s.trace ++ new ∧ t.rstLine = lineAfter s.rstLine new) ∧ (isInit i = false → t.rstLine = s.rstLine)

/-- No operation other than INIT reads or writes `SEQ_STATE`, and none is refused or altered because of its value (R25): run
from another `SEQ_STATE`, every operation but a supported INIT does the same to everything else, leaves that `SEQ_STATE`,
and reports it in the same response; a supported INIT does the same from every `SEQ_STATE`. -/
def Obligations.OnlyInitReadsOrWritesSeqState : Prop :=
  (∀ (i : Instr) (s t : State) (q : SeqState), (∀ o, i = .init o → o ∉ s.cfg.supported) → exec i s = .next t →
    t.seq = s.seq ∧
    ∃ st rdata, t.response = respWord st s.seq :: rdata ∧
      exec i { s with seq := q } = .next { t with seq := q, response := respWord st q :: rdata }) ∧
  (∀ (o : Orientation) (s : State) (q : SeqState), o ∈ s.cfg.supported →
    exec (.init o) { s with seq := q } = exec (.init o) s)

/-- The framebuffer operations emit no bus event and leave `SEQ_STATE` and `RST_LINE` alone (R120), and answer a next state
whatever the transport does. -/
def Obligations.FramebufferOperationsEmitNothing : Prop :=
  ∀ (i : Instr) (s : State), isFramebufferOp i = true → ∃ t, exec i s = .next t ∧ KeptButFb s t

/-- Only FB_CLEAR, FB_WRITE_PIXEL and FB_COPY_REGION write the framebuffer (R20, column "written by"). -/
def Obligations.OnlyWritersChangeTheFramebuffer : Prop :=
  ∀ (i : Instr) (s t : State), writesFb i = false → exec i s = .next t → t.fb = s.fb

/-- Only INIT emits DELAY events (R77), and a DELAY event is always acknowledged OK (R78). -/
def Obligations.DelayEventsOnlyInInitAndAlwaysOk : Prop :=
  ∀ (i : Instr) (s t : State), exec i s = .next t →
    ∃ new, t.trace = s.trace ++ new ∧ ∀ r ∈ new, isDelay r.event = true → isInit i = true ∧ r.ack = .ok

/-- No error stops the DFE (R187, R212): an environment that always answers (log 6) lets every operation answer a next
state. -/
def Obligations.EveryOperationCompletes : Prop :=
  ∀ (i : Instr) (s : State), s.answersLeft = none → ∃ t, exec i s = .next t

/-- The one stop (R212; I10 of 93; log 6): a step stops only because the environment fell silent, and a bus operation whose
first event is never answered does stop. -/
def Obligations.OnlyASilentEnvironmentStops : Prop :=
  (∀ s : State, (∃ t, step s = .next t) ∨ (step s = .fault .neverAnswered ∧ ∃ k, s.answersLeft = some k)) ∧
  (∀ (s : State) (o : Orientation), o ∈ s.cfg.supported → s.answersLeft = some 0 →
    exec (.setOrientation o) s = .fault .neverAnswered ∧ exec (.init o) s = .fault .neverAnswered)

/-! ### Invariants of every step -/

/-- Every step keeps the invariant between operations (R33): the framebuffer's list canonical and within `N_PIX`,
`SEQ_STATE` one of UNINIT, READY, FAILED, the line released unless an INIT failed, no side data held. -/
def Obligations.StepKeepsTheInvariant : Prop := ∀ s t : State, s.Inv → step s = .next t → t.Inv

/-- No step changes the configuration (R29). -/
def Obligations.StepKeepsTheConfiguration : Prop := ∀ s t : State, step s = .next t → t.cfg = s.cfg

/-- The trace is only ever appended to (R32), by every step but a block reset. -/
def Obligations.StepOnlyAppendsToTheTrace : Prop :=
  ∀ s t : State, s.host.head? ≠ some .blockReset → step s = .next t → ∃ new, t.trace = s.trace ++ new

/-- A defined framebuffer word never becomes undefined except by block reset (R22). -/
def Obligations.DefinedWordsStayDefined : Prop :=
  ∀ (s t : State) (a : Nat), s.host.head? ≠ some .blockReset → step s = .next t →
    (fbLookup s.fb a).isSome → (fbLookup t.fb a).isSome
end

