-- ==== Sys2Proof/Laws/Decode.lean ====
section
/-! SUPPORT. The small lemmas of the decoder and the encoder: header fields of a header word, a header word from its
fields, the opcode map, orientations, and what the decoder does with a header it accepts. -/

namespace Sys2Proof

/-! ### Header fields -/

@[simp] theorem headerOpc_headerWord (b : Byte) (o : BitVec 2) : headerOpc (headerWord b o) = b :=
  BitVec.extractLsb'_append_eq_left (a := b) (b := 0#6 ++ o)

@[simp] theorem headerOri_headerWord (b : Byte) (o : BitVec 2) : headerOri (headerWord b o) = o :=
  (BitVec.extractLsb'_append_eq_of_add_le (xhi := b) (xlo := 0#6 ++ o) (by decide)).trans
    (BitVec.extractLsb'_append_eq_right (a := 0#6) (b := o))

@[simp] theorem headerRsv_headerWord (b : Byte) (o : BitVec 2) : headerRsv (headerWord b o) = 0#6 :=
  (BitVec.extractLsb'_append_eq_of_add_le (xhi := b) (xlo := 0#6 ++ o) (by decide)).trans
    (BitVec.extractLsb'_append_eq_left (a := 0#6) (b := o))

/-- A header word is its three fields (R61). -/
theorem header_eq_fields (h : Word) : (headerOpc h ++ (headerRsv h ++ headerOri h) : Word) = h := by
  have h1 : (headerRsv h ++ headerOri h : BitVec 8) = h.extractLsb' 0 8 :=
    BitVec.extractLsb'_append_extractLsb'_eq_extractLsb' (by decide)
  rw [h1]
  exact (BitVec.extractLsb'_append_extractLsb'_eq_extractLsb' (x := h) (len₂ := 8) (by decide)).trans
    BitVec.extractLsb'_eq_self

/-- A header word with `RSV` 0 is the one its `OPC` and `ORI` make (R61, R67). -/
theorem headerWord_of_fields {h : Word} (hr : headerRsv h = 0) : headerWord (headerOpc h) (headerOri h) = h := by
  have := header_eq_fields h
  rw [hr] at this
  exact this

theorem headerOpc_toNat (h : Word) : (headerOpc h).toNat = h.toNat / 256 := by
  have := h.isLt
  simp [headerOpc, Nat.shiftRight_eq_div_pow]
  omega

theorem headerRsv_toNat (h : Word) : (headerRsv h).toNat = h.toNat / 4 % 64 := by
  simp [headerRsv, Nat.shiftRight_eq_div_pow]

theorem headerOri_toNat (h : Word) : (headerOri h).toNat = h.toNat % 4 := by simp [headerOri]

/-! ### Orientations and the opcode map -/

@[simp] theorem orientationOf_code (o : Orientation) : orientationOf (orientationCode o) = o := by cases o <;> rfl

@[simp] theorem orientationCode_of (c : BitVec 2) : orientationCode (orientationOf c) = c := by revert c; decide

@[simp] theorem opcodeOf_byte (m : Opcode) : opcodeOf (opcodeByte m) = some m := by cases m <;> rfl

/-- An `OPC` the map knows is the byte of its operation (R63). -/
theorem opcodeByte_of {b : Byte} {m : Opcode} (h : opcodeOf b = some m) : opcodeByte m = b := by
  revert b m; decide

/-- An image length is its two halves (R62). -/
theorem imageLength_halves (v : BitVec 32) : (v.extractLsb' 16 16 ++ v.extractLsb' 0 16 : BitVec 32) = v :=
  (BitVec.extractLsb'_append_extractLsb'_eq_extractLsb' (by decide)).trans BitVec.extractLsb'_eq_self

theorem imageLength_hi (a b : Word) : (a ++ b : BitVec 32).extractLsb' 16 16 = a := BitVec.extractLsb'_append_eq_left

theorem imageLength_lo (a b : Word) : (a ++ b : BitVec 32).extractLsb' 0 16 = b := BitVec.extractLsb'_append_eq_right

/-! ### The decoder -/

/-- The operand words of what the decoder reads are the packet's, when the length is the one of R63. -/
theorem operandWords_decodeOperands {m : Opcode} {o : Orientation} {ops : List Word}
    (hl : ops.length + 1 = packetLength m) : operandWords (decodeOperands m o ops) = ops := by
  have key : ∀ (n : Nat) (l : List Word), l.length = n → l = (List.range n).map (operandWord l) := by
    intro n l h
    apply List.ext_getElem
    · simp [h]
    · intro k h1 _
      simp [operandWord, List.getD_eq_getElem?_getD, List.getElem?_eq_getElem h1]
  have hk := key (packetLength m - 1) ops (by omega)
  cases m <;> rw [hk] <;>
    simp [decodeOperands, operandWords, packetLength, operandWord, List.range, List.range.loop, imageLength_hi, imageLength_lo]

theorem opcodeOfInstr_decodeOperands (m : Opcode) (o : Orientation) (ops : List Word) :
    opcodeOfInstr (decodeOperands m o ops) = m := by cases m <;> rfl

theorem oriField_decodeOperands (m : Opcode) (o : Orientation) (ops : List Word) :
    oriField (decodeOperands m o ops) = if carriesOrientation m then orientationCode o else 0 := by cases m <;> rfl

/-- What the decoder does with a header whose `OPC` and `RSV` are good, whose length is right and whose `ORI` may stand:
the operands are read (R69). -/
theorem decode_of_good_header {m : Opcode} {ori : BitVec 2} {ops : List Word} (hl : ops.length + 1 = packetLength m)
    (ho : ori ≠ 0 → carriesOrientation m = true) :
    decode (headerWord (opcodeByte m) ori :: ops) = .op (decodeOperands m (orientationOf ori) ops) := by
  have : ¬(ori ≠ 0 ∧ carriesOrientation m = false) := fun h => by simp [ho h.1] at h
  simp only [decode, headerOpc_headerWord, opcodeOf_byte, headerRsv_headerWord, headerOri_headerWord, hl, ne_eq,
    not_true_eq_false, if_false]
  exact if_neg this

/-- A packet that decodes to an operation passed every check of R69, in its order. -/
theorem decode_op {ws : List Word} {i : Instr} (h : decode ws = .op i) :
    ∃ hd ops m, ws = hd :: ops ∧ opcodeOf (headerOpc hd) = some m ∧ ops.length + 1 = packetLength m ∧
      headerRsv hd = 0 ∧ (headerOri hd ≠ 0 → carriesOrientation m = true) ∧
      decodeOperands m (orientationOf (headerOri hd)) ops = i := by
  cases ws with
  | nil => simp [decode] at h
  | cons hd ops =>
    simp only [decode] at h
    split at h
    · simp at h
    · rename_i m hm
      split at h
      · simp at h
      · rename_i hl
        split at h
        · simp at h
        · rename_i hr
          split at h
          · simp at h
          · rename_i ho
            refine ⟨hd, ops, m, rfl, hm, not_not.mp hl, not_not.mp hr, fun hn => ?_, by simpa using h⟩
            cases hc : carriesOrientation m with
            | true => rfl
            | false => exact absurd ⟨hn, hc⟩ ho

end Sys2Proof
end

