-- ==== Sys2Proof/Laws/Memory.lean ====
section
/-! SUPPORT. The laws of the framebuffer's list: read after write, that every write keeps the canonical form, which
addresses a sequence of writes can list, and that canonical lists that read alike are equal. -/

namespace Sys2Proof.Machine

theorem fbLookup_fbSet_self (m : List FbCell) (a : Nat) (v : Word) : fbLookup (fbSet m a v) a = some v := by
  induction m with
  | nil => simp [fbSet, fbLookup]
  | cons c m ih =>
    obtain ⟨b, u⟩ := c
    unfold fbSet
    split
    · simp [fbLookup]
    · split
      · simp [fbLookup]
      · rename_i h; simp [fbLookup, h, ih]

theorem fbLookup_fbSet_ne (m : List FbCell) {a b : Nat} (v : Word) (h : b ≠ a) :
    fbLookup (fbSet m a v) b = fbLookup m b := by
  induction m with
  | nil => simp [fbSet, fbLookup, h]
  | cons c m ih =>
    obtain ⟨k, u⟩ := c
    unfold fbSet
    split
    · simp [fbLookup, h]
    · split
      · rename_i hk; subst hk; simp [fbLookup, h]
      · simp [fbLookup, ih]

theorem fbLookup_fbSet (m : List FbCell) (a b : Nat) (v : Word) :
    fbLookup (fbSet m a v) b = if b = a then some v else fbLookup m b := by
  split
  · subst b; exact fbLookup_fbSet_self m a v
  · rename_i h; exact fbLookup_fbSet_ne m v h

/-- A write lists nothing but its own word and what was listed. -/
theorem mem_fbSet {m : List FbCell} {a : Nat} {v : Word} {c : FbCell} (h : c ∈ fbSet m a v) : c = (a, v) ∨ c ∈ m := by
  induction m with
  | nil => simpa [fbSet] using h
  | cons d m ih =>
    obtain ⟨b, u⟩ := d
    unfold fbSet at h
    split at h
    · simpa using h
    · split at h
      · rcases List.mem_cons.mp h with h | h
        · exact .inl h
        · exact .inr (List.mem_cons_of_mem _ h)
      · rcases List.mem_cons.mp h with h | h
        · exact .inr (h ▸ List.mem_cons_self)
        · exact (ih h).imp id (List.mem_cons_of_mem _)

theorem fbWf_cons {c : FbCell} {m : List FbCell} :
    fbWf (c :: m) = true ↔ (∀ d ∈ m.head?, c.1 < d.1) ∧ fbWf m = true := by
  cases m <;> simp [fbWf]

/-- In a canonical list the head's address is below every later one. -/
theorem fbWf_head_lt {c : FbCell} {m : List FbCell} (h : fbWf (c :: m) = true) : ∀ d ∈ m, c.1 < d.1 := by
  induction m generalizing c with
  | nil => simp
  | cons e m ih =>
    obtain ⟨h1, h2⟩ := fbWf_cons.mp h
    have hce : c.1 < e.1 := h1 e (by simp)
    intro d hd
    rcases List.mem_cons.mp hd with rfl | hd
    · exact hce
    · exact hce.trans (ih h2 d hd)

/-- Every write keeps the canonical form. -/
theorem fbSet_wf {m : List FbCell} (a : Nat) (v : Word) (h : fbWf m = true) : fbWf (fbSet m a v) = true := by
  induction m with
  | nil => rfl
  | cons c m ih =>
    obtain ⟨b, u⟩ := c
    obtain ⟨h1, h2⟩ := fbWf_cons.mp h
    unfold fbSet
    split
    · rename_i hab; exact fbWf_cons.mpr ⟨by simpa using hab, h⟩
    · split
      · rename_i hab; subst hab; exact fbWf_cons.mpr ⟨h1, h2⟩
      · rename_i hlt hne
        refine fbWf_cons.mpr ⟨fun d hd => ?_, ih h2⟩
        rcases mem_fbSet (List.mem_of_mem_head? hd) with rfl | hd
        · simp only []; omega
        · exact fbWf_head_lt h d hd

theorem fbSetAll_cons (m : List FbCell) (w : FbCell) (ws : List FbCell) :
    fbSetAll m (w :: ws) = fbSetAll (fbSet m w.1 w.2) ws := rfl

theorem fbSetAll_wf {m : List FbCell} (ws : List FbCell) (h : fbWf m = true) : fbWf (fbSetAll m ws) = true := by
  induction ws generalizing m with
  | nil => exact h
  | cons w ws ih => exact ih (fbSet_wf _ _ h)

theorem mem_fbSetAll {m ws : List FbCell} {c : FbCell} (h : c ∈ fbSetAll m ws) : c ∈ ws ∨ c ∈ m := by
  induction ws generalizing m with
  | nil => exact .inr h
  | cons w ws ih =>
    rcases ih h with h | h
    · exact .inl (List.mem_cons_of_mem _ h)
    · exact (mem_fbSet h).imp (fun h => by simp [h]) id

/-- A sequence of writes leaves every word it does not write alone. -/
theorem fbLookup_fbSetAll_of_not_mem {m ws : List FbCell} {a : Nat} (h : ∀ w ∈ ws, w.1 ≠ a) :
    fbLookup (fbSetAll m ws) a = fbLookup m a := by
  induction ws generalizing m with
  | nil => rfl
  | cons w ws ih =>
    rw [fbSetAll_cons, ih fun x hx => h x (List.mem_cons_of_mem _ hx),
      fbLookup_fbSet_ne _ _ (Ne.symm (h w List.mem_cons_self))]

/-- A sequence of writes that writes a word, and never another value to it, defines the word as that value. -/
theorem fbLookup_fbSetAll_of_mem {m ws : List FbCell} {a : Nat} {v : Word} (h : (a, v) ∈ ws)
    (hu : ∀ w ∈ ws, w.1 = a → w.2 = v) : fbLookup (fbSetAll m ws) a = some v := by
  induction ws generalizing m with
  | nil => simp at h
  | cons w ws ih =>
    rw [fbSetAll_cons]
    by_cases hm : ∃ x ∈ ws, x.1 = a
    · obtain ⟨x, hx, hxa⟩ := hm
      have hxv := hu x (List.mem_cons_of_mem _ hx) hxa
      refine ih ?_ fun y hy => hu y (List.mem_cons_of_mem _ hy)
      rw [← hxa, ← hxv]; exact hx
    · push Not at hm
      rw [fbLookup_fbSetAll_of_not_mem hm]
      rcases List.mem_cons.mp h with h | h
      · subst h; exact fbLookup_fbSet_self _ _ _
      · exact absurd rfl (hm _ h)

/-- A defined word stays defined under writes (R22). -/
theorem fbLookup_fbSetAll_isSome {m ws : List FbCell} {a : Nat} (h : (fbLookup m a).isSome) :
    (fbLookup (fbSetAll m ws) a).isSome := by
  induction ws generalizing m with
  | nil => exact h
  | cons w ws ih =>
    rw [fbSetAll_cons]
    refine ih ?_
    rw [fbLookup_fbSet]
    split
    · rfl
    · exact h

theorem fbLookup_of_mem {m : List FbCell} (hw : fbWf m = true) {a : Nat} {v : Word} (h : (a, v) ∈ m) :
    fbLookup m a = some v := by
  induction m with
  | nil => simp at h
  | cons c m ih =>
    obtain ⟨b, u⟩ := c
    unfold fbLookup
    rcases List.mem_cons.mp h with h | h
    · simp only [Prod.mk.injEq] at h; simp [h]
    · have hb := fbWf_head_lt hw _ h
      simp only [] at hb
      rw [if_neg (by omega), ih (fbWf_cons.mp hw).2 h]

theorem fbLookup_eq_none_of_lt {m : List FbCell} {a : Nat} (h : ∀ c ∈ m, a < c.1) : fbLookup m a = none := by
  induction m with
  | nil => rfl
  | cons c m ih =>
    obtain ⟨b, u⟩ := c
    have := h (b, u) List.mem_cons_self
    simp only [] at this
    rw [fbLookup, if_neg (by omega), ih fun c hc => h c (List.mem_cons_of_mem _ hc)]

/-- Canonical lists that read alike are equal data. -/
theorem fbWf_ext {m m' : List FbCell} (h : fbWf m = true) (h' : fbWf m' = true)
    (he : ∀ a, fbLookup m a = fbLookup m' a) : m = m' := by
  induction m generalizing m' with
  | nil =>
    cases m' with
    | nil => rfl
    | cons d m' => have := he d.1; simp [fbLookup] at this
  | cons c m ih =>
    obtain ⟨b, u⟩ := c
    cases m' with
    | nil => have := he b; simp [fbLookup] at this
    | cons d m' =>
      obtain ⟨b', u'⟩ := d
      have hl := fbWf_head_lt h
      have hl' := fbWf_head_lt h'
      have hb : b = b' := by
        rcases Nat.lt_trichotomy b b' with hlt | heq | hgt
        · have := he b
          rw [fbLookup, if_pos rfl, fbLookup_eq_none_of_lt (m := (b', u') :: m')] at this
          · simp at this
          · intro c hc
            rcases List.mem_cons.mp hc with rfl | hc
            · exact hlt
            · exact hlt.trans (hl' c hc)
        · exact heq
        · have := he b'
          rw [fbLookup_eq_none_of_lt (m := (b, u) :: m), fbLookup, if_pos rfl] at this
          · simp at this
          · intro c hc
            rcases List.mem_cons.mp hc with rfl | hc
            · exact hgt
            · exact hgt.trans (hl c hc)
      subst hb
      have hu : u = u' := by have := he b; simpa [fbLookup] using this
      subst hu
      congr 1
      refine ih (fbWf_cons.mp h).2 (fbWf_cons.mp h').2 fun a => ?_
      have := he a
      by_cases hab : a = b
      · subst hab
        rw [fbLookup_eq_none_of_lt fun c hc => hl c hc, fbLookup_eq_none_of_lt fun c hc => hl' c hc]
      · simpa [fbLookup, hab] using this

theorem resetOf_fb_wf (c : Config) : fbWf (State.resetOf c).fb = true := rfl

theorem reset_fb_wf : fbWf State.reset.fb = true := rfl

end Sys2Proof.Machine
end

