-- ==== Sys2Proof/Laws/State.lean ====
section
/-! SUPPORT. What each update of the state does to each field, so that no later proof unfolds a record update. -/

namespace Sys2Proof.Machine

variable (s : State)

@[simp] theorem State.finish_eq : s.finish = s.respond .ok [] := rfl
@[simp] theorem State.raise_eq (st : Status) : s.raise st = s.respond st [] := rfl
@[simp] theorem State.refusePacket_eq : s.refusePacket = s.respond .illegalCommand [] := rfl

@[simp] theorem State.fbWrite_cfg (a : Nat) (v : Word) : (s.fbWrite a v).cfg = s.cfg := rfl
@[simp] theorem State.fbWrite_fb (a : Nat) (v : Word) : (s.fbWrite a v).fb = fbSet s.fb a v := rfl
@[simp] theorem State.fbWrite_seq (a : Nat) (v : Word) : (s.fbWrite a v).seq = s.seq := rfl
@[simp] theorem State.fbWrite_rstLine (a : Nat) (v : Word) : (s.fbWrite a v).rstLine = s.rstLine := rfl
@[simp] theorem State.fbWrite_trace (a : Nat) (v : Word) : (s.fbWrite a v).trace = s.trace := rfl
@[simp] theorem State.fbWrite_response (a : Nat) (v : Word) : (s.fbWrite a v).response = s.response := rfl
@[simp] theorem State.fbWrite_src (a : Nat) (v : Word) : (s.fbWrite a v).src = s.src := rfl
@[simp] theorem State.fbWrite_img (a : Nat) (v : Word) : (s.fbWrite a v).img = s.img := rfl
@[simp] theorem State.fbWrite_host (a : Nat) (v : Word) : (s.fbWrite a v).host = s.host := rfl
@[simp] theorem State.fbWrite_acks (a : Nat) (v : Word) : (s.fbWrite a v).acks = s.acks := rfl
@[simp] theorem State.fbWrite_answersLeft (a : Nat) (v : Word) : (s.fbWrite a v).answersLeft = s.answersLeft := rfl
@[simp] theorem State.fbWrite_draws (a : Nat) (v : Word) : (s.fbWrite a v).draws = s.draws := rfl

@[simp] theorem State.fbWriteAll_cfg (ws : List FbCell) : (s.fbWriteAll ws).cfg = s.cfg := rfl
@[simp] theorem State.fbWriteAll_fb (ws : List FbCell) : (s.fbWriteAll ws).fb = fbSetAll s.fb ws := rfl
@[simp] theorem State.fbWriteAll_seq (ws : List FbCell) : (s.fbWriteAll ws).seq = s.seq := rfl
@[simp] theorem State.fbWriteAll_rstLine (ws : List FbCell) : (s.fbWriteAll ws).rstLine = s.rstLine := rfl
@[simp] theorem State.fbWriteAll_trace (ws : List FbCell) : (s.fbWriteAll ws).trace = s.trace := rfl
@[simp] theorem State.fbWriteAll_response (ws : List FbCell) : (s.fbWriteAll ws).response = s.response := rfl
@[simp] theorem State.fbWriteAll_src (ws : List FbCell) : (s.fbWriteAll ws).src = s.src := rfl
@[simp] theorem State.fbWriteAll_img (ws : List FbCell) : (s.fbWriteAll ws).img = s.img := rfl
@[simp] theorem State.fbWriteAll_host (ws : List FbCell) : (s.fbWriteAll ws).host = s.host := rfl
@[simp] theorem State.fbWriteAll_acks (ws : List FbCell) : (s.fbWriteAll ws).acks = s.acks := rfl
@[simp] theorem State.fbWriteAll_answersLeft (ws : List FbCell) : (s.fbWriteAll ws).answersLeft = s.answersLeft := rfl
@[simp] theorem State.fbWriteAll_draws (ws : List FbCell) : (s.fbWriteAll ws).draws = s.draws := rfl

@[simp] theorem State.accept_cfg (p : Packet) (later : List HostInput) : (s.accept p later).cfg = s.cfg := rfl
@[simp] theorem State.accept_fb (p : Packet) (later : List HostInput) : (s.accept p later).fb = s.fb := rfl
@[simp] theorem State.accept_seq (p : Packet) (later : List HostInput) : (s.accept p later).seq = s.seq := rfl
@[simp] theorem State.accept_rstLine (p : Packet) (later : List HostInput) : (s.accept p later).rstLine = s.rstLine := rfl
@[simp] theorem State.accept_trace (p : Packet) (later : List HostInput) : (s.accept p later).trace = s.trace := rfl
@[simp] theorem State.accept_response (p : Packet) (later : List HostInput) : (s.accept p later).response = s.response := rfl
@[simp] theorem State.accept_src (p : Packet) (later : List HostInput) : (s.accept p later).src = p.src := rfl
@[simp] theorem State.accept_img (p : Packet) (later : List HostInput) : (s.accept p later).img = p.img := rfl
@[simp] theorem State.accept_host (p : Packet) (later : List HostInput) : (s.accept p later).host = later := rfl
@[simp] theorem State.accept_acks (p : Packet) (later : List HostInput) : (s.accept p later).acks = s.acks := rfl
@[simp] theorem State.accept_answersLeft (p : Packet) (later : List HostInput) : (s.accept p later).answersLeft = s.answersLeft := rfl
@[simp] theorem State.accept_draws (p : Packet) (later : List HostInput) : (s.accept p later).draws = s.draws := rfl

@[simp] theorem State.respond_cfg (st : Status) (rd : List Word) : (s.respond st rd).cfg = s.cfg := rfl
@[simp] theorem State.respond_fb (st : Status) (rd : List Word) : (s.respond st rd).fb = s.fb := rfl
@[simp] theorem State.respond_seq (st : Status) (rd : List Word) : (s.respond st rd).seq = s.seq := rfl
@[simp] theorem State.respond_rstLine (st : Status) (rd : List Word) : (s.respond st rd).rstLine = s.rstLine := rfl
@[simp] theorem State.respond_trace (st : Status) (rd : List Word) : (s.respond st rd).trace = s.trace := rfl
@[simp] theorem State.respond_response (st : Status) (rd : List Word) : (s.respond st rd).response = respWord st s.seq :: rd := rfl
@[simp] theorem State.respond_src (st : Status) (rd : List Word) : (s.respond st rd).src = [] := rfl
@[simp] theorem State.respond_img (st : Status) (rd : List Word) : (s.respond st rd).img = [] := rfl
@[simp] theorem State.respond_host (st : Status) (rd : List Word) : (s.respond st rd).host = s.host := rfl
@[simp] theorem State.respond_acks (st : Status) (rd : List Word) : (s.respond st rd).acks = s.acks := rfl
@[simp] theorem State.respond_answersLeft (st : Status) (rd : List Word) : (s.respond st rd).answersLeft = s.answersLeft := rfl
@[simp] theorem State.respond_draws (st : Status) (rd : List Word) : (s.respond st rd).draws = s.draws + 1 := rfl

@[simp] theorem State.emit_cfg (e : Event) : (s.emit e).cfg = s.cfg := rfl
@[simp] theorem State.emit_fb (e : Event) : (s.emit e).fb = s.fb := rfl
@[simp] theorem State.emit_seq (e : Event) : (s.emit e).seq = s.seq := rfl
@[simp] theorem State.emit_rstLine (e : Event) : (s.emit e).rstLine = s.rstLine := rfl
@[simp] theorem State.emit_trace (e : Event) : (s.emit e).trace = s.trace ++ [⟨e, s.ackFor e⟩] := rfl
@[simp] theorem State.emit_response (e : Event) : (s.emit e).response = s.response := rfl
@[simp] theorem State.emit_src (e : Event) : (s.emit e).src = s.src := rfl
@[simp] theorem State.emit_img (e : Event) : (s.emit e).img = s.img := rfl
@[simp] theorem State.emit_host (e : Event) : (s.emit e).host = s.host := rfl
@[simp] theorem State.emit_acks (e : Event) : (s.emit e).acks = if isDelay e then s.acks else s.acks.tail := rfl
@[simp] theorem State.emit_answersLeft (e : Event) : (s.emit e).answersLeft = s.answersLeft := rfl
@[simp] theorem State.emit_draws (e : Event) : (s.emit e).draws = s.draws := rfl

@[simp] theorem State.setSeq_cfg (q : SeqState) : (s.setSeq q).cfg = s.cfg := rfl
@[simp] theorem State.setSeq_fb (q : SeqState) : (s.setSeq q).fb = s.fb := rfl
@[simp] theorem State.setSeq_seq (q : SeqState) : (s.setSeq q).seq = q := rfl
@[simp] theorem State.setSeq_rstLine (q : SeqState) : (s.setSeq q).rstLine = s.rstLine := rfl
@[simp] theorem State.setSeq_trace (q : SeqState) : (s.setSeq q).trace = s.trace := rfl
@[simp] theorem State.setSeq_response (q : SeqState) : (s.setSeq q).response = s.response := rfl
@[simp] theorem State.setSeq_src (q : SeqState) : (s.setSeq q).src = s.src := rfl
@[simp] theorem State.setSeq_img (q : SeqState) : (s.setSeq q).img = s.img := rfl
@[simp] theorem State.setSeq_host (q : SeqState) : (s.setSeq q).host = s.host := rfl
@[simp] theorem State.setSeq_acks (q : SeqState) : (s.setSeq q).acks = s.acks := rfl
@[simp] theorem State.setSeq_answersLeft (q : SeqState) : (s.setSeq q).answersLeft = s.answersLeft := rfl
@[simp] theorem State.setSeq_draws (q : SeqState) : (s.setSeq q).draws = s.draws := rfl

@[simp] theorem State.setLine_cfg (l : BitVec 1) : (s.setLine l).cfg = s.cfg := rfl
@[simp] theorem State.setLine_fb (l : BitVec 1) : (s.setLine l).fb = s.fb := rfl
@[simp] theorem State.setLine_seq (l : BitVec 1) : (s.setLine l).seq = s.seq := rfl
@[simp] theorem State.setLine_rstLine (l : BitVec 1) : (s.setLine l).rstLine = l := rfl
@[simp] theorem State.setLine_trace (l : BitVec 1) : (s.setLine l).trace = s.trace := rfl
@[simp] theorem State.setLine_response (l : BitVec 1) : (s.setLine l).response = s.response := rfl
@[simp] theorem State.setLine_src (l : BitVec 1) : (s.setLine l).src = s.src := rfl
@[simp] theorem State.setLine_img (l : BitVec 1) : (s.setLine l).img = s.img := rfl
@[simp] theorem State.setLine_host (l : BitVec 1) : (s.setLine l).host = s.host := rfl
@[simp] theorem State.setLine_acks (l : BitVec 1) : (s.setLine l).acks = s.acks := rfl
@[simp] theorem State.setLine_answersLeft (l : BitVec 1) : (s.setLine l).answersLeft = s.answersLeft := rfl
@[simp] theorem State.setLine_draws (l : BitVec 1) : (s.setLine l).draws = s.draws := rfl

@[simp] theorem State.blockReset_cfg (later : List HostInput) : (s.blockReset later).cfg = s.cfg := rfl
@[simp] theorem State.blockReset_fb (later : List HostInput) : (s.blockReset later).fb = [] := rfl
@[simp] theorem State.blockReset_seq (later : List HostInput) : (s.blockReset later).seq = .uninit := rfl
@[simp] theorem State.blockReset_rstLine (later : List HostInput) : (s.blockReset later).rstLine = s.cfg.released := rfl
@[simp] theorem State.blockReset_trace (later : List HostInput) : (s.blockReset later).trace = [] := rfl
@[simp] theorem State.blockReset_response (later : List HostInput) : (s.blockReset later).response = [] := rfl
@[simp] theorem State.blockReset_src (later : List HostInput) : (s.blockReset later).src = [] := rfl
@[simp] theorem State.blockReset_img (later : List HostInput) : (s.blockReset later).img = [] := rfl
@[simp] theorem State.blockReset_host (later : List HostInput) : (s.blockReset later).host = later := rfl
@[simp] theorem State.blockReset_acks (later : List HostInput) : (s.blockReset later).acks = s.acks := rfl
@[simp] theorem State.blockReset_answersLeft (later : List HostInput) : (s.blockReset later).answersLeft = s.answersLeft := rfl
@[simp] theorem State.blockReset_draws (later : List HostInput) : (s.blockReset later).draws = s.draws + 1 := rfl

end Sys2Proof.Machine
end

