-- ==== Sys2Proof/Laws/Ops.lean ====
section
/-! SUPPORT. One lemma for each shared operation that says everything it can do: what a list of bus actions leaves alone
and what it appends to the trace, how a bus operation ends, and how the framebuffer's list stays within `N_PIX`. -/

namespace Sys2Proof.Machine

open Sys2Proof.Claims

/-! ### The actions' events -/

theorem actEvents_append (xs ys : List BusAct) : actEvents (xs ++ ys) = actEvents xs ++ actEvents ys := by
  induction xs with
  | nil => rfl
  | cons x xs ih => cases x <;> simp [actEvents, ih]

@[simp] theorem actEvents_map_emit (es : List Event) : actEvents (es.map .emit) = es := by
  induction es with
  | nil => rfl
  | cons e es ih => simp [actEvents, ih]

/-! ### Acknowledgements -/

theorem ackFor_delay {s : State} {e : Event} (h : isDelay e = true) : s.ackFor e = .ok := by simp [State.ackFor, h]

/-- An event the transport answers ERR is no DELAY (R78). -/
theorem not_isDelay_of_ackFor_err {s : State} {e : Event} (h : s.ackFor e = .err) : isDelay e = false := by
  cases hd : isDelay e with
  | false => rfl
  | true => simp [ackFor_delay hd] at h

/-! ### What a list of actions does -/

/-- Bus actions leave everything but `SEQ_STATE`, `RST_LINE`, the trace and the transport's answers alone. -/
theorem runActs_frame (acts : List BusAct) (s : State) :
    (runActs acts s).1.cfg = s.cfg ∧ (runActs acts s).1.fb = s.fb ∧ (runActs acts s).1.response = s.response ∧
    (runActs acts s).1.src = s.src ∧ (runActs acts s).1.img = s.img ∧ (runActs acts s).1.host = s.host ∧
    (runActs acts s).1.answersLeft = s.answersLeft ∧ (runActs acts s).1.draws = s.draws := by
  induction acts generalizing s with
  | nil => simp [runActs]
  | cons a acts ih =>
    cases a with
    | toSeq q => simpa [runActs] using ih (s.setSeq q)
    | toLine l => simpa [runActs] using ih (s.setLine l)
    | emit e =>
      simp only [runActs]
      split
      · simpa using ih (s.emit e)
      · simp

/-- Actions that only emit leave `SEQ_STATE` and `RST_LINE` alone. -/
theorem runActs_emit_frame (es : List Event) (s : State) :
    (runActs (es.map .emit) s).1.seq = s.seq ∧ (runActs (es.map .emit) s).1.rstLine = s.rstLine := by
  induction es generalizing s with
  | nil => simp [runActs]
  | cons e es ih =>
    simp only [List.map_cons, runActs]
    split
    · simpa using ih (s.emit e)
    · simp

/-- The trace of a list of actions that ran to its end: every event, in order, each acknowledged OK (R78). -/
theorem runActs_trace_ok {acts : List BusAct} {s : State} (h : (runActs acts s).2 = .ok) :
    (runActs acts s).1.trace = s.trace ++ acked (actEvents acts) := by
  induction acts generalizing s with
  | nil => simp [runActs, actEvents, acked]
  | cons a acts ih =>
    cases a with
    | toSeq q => simpa [runActs, actEvents] using ih (s := s.setSeq q) h
    | toLine l => simpa [runActs, actEvents] using ih (s := s.setLine l) h
    | emit e =>
      simp only [runActs] at h ⊢
      split at h
      · rename_i ha
        simpa [actEvents, acked, ha] using ih (s := s.emit e) h
      · simp at h

/-- The trace of a list of actions that stopped: the events up to and with the first one acknowledged ERR, which is no DELAY
and after which nothing is emitted (R78, R184). -/
theorem runActs_trace_err {acts : List BusAct} {s : State} (h : (runActs acts s).2 = .err) :
    ∃ before e after, actEvents acts = before ++ e :: after ∧ isDelay e = false ∧
      (runActs acts s).1.trace = s.trace ++ (acked before ++ [⟨e, .err⟩]) := by
  induction acts generalizing s with
  | nil => simp [runActs] at h
  | cons a acts ih =>
    cases a with
    | toSeq q => simpa [runActs, actEvents] using ih (s := s.setSeq q) h
    | toLine l => simpa [runActs, actEvents] using ih (s := s.setLine l) h
    | emit e =>
      simp only [runActs] at h ⊢
      split at h
      · rename_i ha
        obtain ⟨b, f, r, h1, h2, h3⟩ := ih (s := s.emit e) h
        refine ⟨e :: b, f, r, by simp [actEvents, h1], h2, ?_⟩
        simpa [acked, ha] using h3
      · rename_i ha
        refine ⟨[], e, actEvents acts, rfl, not_isDelay_of_ackFor_err ha, ?_⟩
        simp [acked, ha]

/-- A list of actions only appends to the trace (R32). -/
theorem runActs_trace_append (acts : List BusAct) (s : State) :
    ∃ new, (runActs acts s).1.trace = s.trace ++ new := by
  cases h : (runActs acts s).2 with
  | ok => exact ⟨_, runActs_trace_ok h⟩
  | err => obtain ⟨b, e, _, _, _, ht⟩ := runActs_trace_err h; exact ⟨_, ht⟩

theorem answerCount_cons (e : Event) (es : List Event) :
    answerCount (e :: es) = if isDelay e then answerCount es else answerCount es + 1 := by
  cases h : isDelay e <;> simp [answerCount, h]

/-- When the environment's next answers are all OK, every action runs and exactly those answers are used up. -/
theorem runActs_of_all_ok {acts : List BusAct} {s : State}
    (h : s.acks.take (answerCount (actEvents acts)) = List.replicate (answerCount (actEvents acts)) .ok) :
    (runActs acts s).2 = .ok ∧ (runActs acts s).1.acks = s.acks.drop (answerCount (actEvents acts)) := by
  induction acts generalizing s with
  | nil => simp [runActs, actEvents, answerCount]
  | cons a acts ih =>
    cases a with
    | toSeq q => simpa [runActs, actEvents] using ih (s := s.setSeq q) h
    | toLine l => simpa [runActs, actEvents] using ih (s := s.setLine l) h
    | emit e =>
      cases hd : isDelay e with
      | true =>
        simp only [actEvents, answerCount_cons, hd, if_true] at h ⊢
        simpa [runActs, ackFor_delay hd, hd] using ih (s := s.emit e) (by simpa [hd] using h)
      | false =>
        simp only [actEvents, answerCount_cons, hd, Bool.false_eq_true, if_false] at h ⊢
        cases hk : s.acks with
        | nil => rw [hk] at h; simp [List.replicate_succ] at h
        | cons k ks =>
          rw [hk, List.take_succ_cons, List.replicate_succ] at h
          simp only [List.cons.injEq] at h
          have ha : s.ackFor e = .ok := by simp [State.ackFor, hd, State.nextAck, hk, h.1]
          have := ih (s := s.emit e) (by simpa [hd, hk] using h.2)
          simpa [runActs, ha, hd, hk, List.drop_succ_cons] using this

theorem failAt_delay (k : Nat) (d : DelayName) (es : List Event) :
    failAt k (.delay d :: es) = ⟨.delay d, .ok⟩ :: failAt k es := by cases k <;> rfl

theorem failAt_zero {e : Event} (es : List Event) (h : isDelay e = false) : failAt 0 (e :: es) = [⟨e, .err⟩] := by
  cases e <;> simp [isDelay] at h <;> rfl

theorem failAt_succ {e : Event} (k : Nat) (es : List Event) (h : isDelay e = false) :
    failAt (k + 1) (e :: es) = ⟨e, .ok⟩ :: failAt k es := by
  cases e <;> simp [isDelay] at h <;> rfl

theorem eq_delay_of_isDelay {e : Event} (h : isDelay e = true) : ∃ d, e = .delay d := by
  cases e <;> simp [isDelay] at h
  exact ⟨_, rfl⟩

/-- When the environment's `k`-th answer is ERR and those before it OK, the actions stop at the event that gets it. -/
theorem runActs_of_fails {acts : List BusAct} {s : State} {k : Nat} (hk : k < answerCount (actEvents acts))
    (h : s.acks.take (k + 1) = List.replicate k .ok ++ [.err]) :
    (runActs acts s).2 = .err ∧ (runActs acts s).1.trace = s.trace ++ failAt k (actEvents acts) ∧
    (runActs acts s).1.acks = s.acks.drop (k + 1) := by
  induction acts generalizing s k with
  | nil => simp [actEvents, answerCount] at hk
  | cons a acts ih =>
    cases a with
    | toSeq q => simpa [runActs, actEvents] using ih (s := s.setSeq q) hk h
    | toLine l => simpa [runActs, actEvents] using ih (s := s.setLine l) hk h
    | emit e =>
      cases hd : isDelay e with
      | true =>
        obtain ⟨d, rfl⟩ := eq_delay_of_isDelay hd
        simp only [actEvents, answerCount_cons, hd, if_true] at hk
        simpa [runActs, actEvents, ackFor_delay hd, hd, failAt_delay] using
          ih (s := s.emit (.delay d)) hk (by simpa [hd] using h)
      | false =>
        simp only [actEvents, answerCount_cons, hd, Bool.false_eq_true, if_false] at hk
        cases hs : s.acks with
        | nil => rw [hs] at h; simp at h
        | cons x xs =>
          rw [hs] at h
          cases k with
          | zero =>
            simp only [zero_add, List.take_succ_cons, List.take_zero, List.replicate_zero, List.nil_append,
              List.cons.injEq, and_true] at h
            have ha : s.ackFor e = .err := by simp [State.ackFor, hd, State.nextAck, hs, h]
            simp [runActs, ha, actEvents, failAt_zero _ hd, hd, hs]
          | succ k =>
            rw [List.take_succ_cons, List.replicate_succ, List.cons_append] at h
            simp only [List.cons.injEq] at h
            have ha : s.ackFor e = .ok := by simp [State.ackFor, hd, State.nextAck, hs, h.1]
            simpa [runActs, ha, actEvents, failAt_succ _ _ hd, hd, hs, List.drop_succ_cons] using
              ih (s := s.emit e) (k := k) (by omega) (by simpa [hd, hs] using h.2)

/-- The last `SEQ_STATE` a list of actions writes, or the one before it. -/
def lastSeq : SeqState → List BusAct → SeqState
  | q, [] => q
  | _, .toSeq q :: rest => lastSeq q rest
  | q, .toLine _ :: rest => lastSeq q rest
  | q, .emit _ :: rest => lastSeq q rest

theorem lastSeq_append (q : SeqState) (xs ys : List BusAct) : lastSeq q (xs ++ ys) = lastSeq (lastSeq q xs) ys := by
  induction xs generalizing q with
  | nil => rfl
  | cons x xs ih => cases x <;> simp [lastSeq, ih]

/-- Actions that ran to their end leave the last `SEQ_STATE` they write. -/
theorem runActs_seq_ok {acts : List BusAct} {s : State} (h : (runActs acts s).2 = .ok) :
    (runActs acts s).1.seq = lastSeq s.seq acts := by
  induction acts generalizing s with
  | nil => rfl
  | cons a acts ih =>
    cases a with
    | toSeq q => simpa [runActs, lastSeq] using ih (s := s.setSeq q) h
    | toLine l => simpa [runActs, lastSeq] using ih (s := s.setLine l) h
    | emit e =>
      simp only [runActs] at h ⊢
      split at h
      · simpa [lastSeq] using ih (s := s.emit e) h
      · simp at h

/-- Every write of the line is followed by its RST event, and every RST event follows such a write. -/
def lineMatched : List BusAct → Bool
  | [] => true
  | .toSeq _ :: rest => lineMatched rest
  | .toLine l :: rest =>
    match rest with
    | .emit (.rst k) :: rest => decide (l = k) && lineMatched rest
    | _ => false
  | .emit e :: rest =>
    match e with
    | .rst _ => false
    | _ => lineMatched rest

theorem lineAfter_append (l : BitVec 1) (xs ys : List BusRecord) :
    lineAfter l (xs ++ ys) = lineAfter (lineAfter l xs) ys := by
  induction xs generalizing l with
  | nil => rfl
  | cons x xs ih => obtain ⟨e, a⟩ := x; cases e <;> simp [lineAfter, ih]

/-- Records without a RST event leave the line as it was. -/
theorem lineAfter_of_no_rst {l : BitVec 1} {xs : List BusRecord} (h : ∀ r ∈ xs, ∀ k, r.event ≠ .rst k) :
    lineAfter l xs = l := by
  induction xs with
  | nil => rfl
  | cons x xs ih =>
    obtain ⟨e, a⟩ := x
    have := ih fun r hr => h r (List.mem_cons_of_mem _ hr)
    cases e with
    | rst k => exact absurd rfl (h _ List.mem_cons_self k)
    | _ => simpa [lineAfter] using this

/-- Where every write of the line comes with its RST event, the line is at the level of the last RST event (R26). -/
theorem runActs_line {acts : List BusAct} {s : State} (h : lineMatched acts = true) :
    ∃ new, (runActs acts s).1.trace = s.trace ++ new ∧ (runActs acts s).1.rstLine = lineAfter s.rstLine new := by
  induction hn : acts.length using Nat.strong_induction_on generalizing acts s with
  | _ n ih =>
  subst hn
  cases acts with
  | nil => exact ⟨[], by simp [runActs], rfl⟩
  | cons a rest =>
    cases a with
    | toSeq q => simpa [runActs] using ih _ (by simp) (s := s.setSeq q) (by simpa [lineMatched] using h) rfl
    | toLine l =>
      obtain ⟨rest, rfl, hr⟩ : ∃ r, rest = .emit (.rst l) :: r ∧ lineMatched r = true := by
        rcases rest with _ | ⟨_ | _ | e, rest⟩
        · simp [lineMatched] at h
        · simp [lineMatched] at h
        · simp [lineMatched] at h
        · cases e <;> simp [lineMatched] at h
          obtain ⟨rfl, h⟩ := h
          exact ⟨rest, rfl, h⟩
      simp only [runActs]
      split
      · obtain ⟨new, h1, h2⟩ := ih rest.length (by simp) (acts := rest) (s := (s.setLine l).emit (.rst l)) hr rfl
        exact ⟨⟨.rst l, (s.setLine l).ackFor (.rst l)⟩ :: new, by simpa using h1, by simpa [lineAfter] using h2⟩
      · exact ⟨[⟨.rst l, (s.setLine l).ackFor (.rst l)⟩], by simp, by simp [lineAfter]⟩
    | emit e =>
      have hr : lineMatched rest = true ∧ ∀ k ls, lineAfter k (⟨e, s.ackFor e⟩ :: ls) = lineAfter k ls := by
        cases e <;> simp_all [lineMatched, lineAfter]
      simp only [runActs]
      split
      · obtain ⟨new, h1, h2⟩ := ih rest.length (by simp) (s := s.emit e) hr.1 rfl
        exact ⟨⟨e, s.ackFor e⟩ :: new, by simpa using h1, by simpa [hr.2] using h2⟩
      · exact ⟨[⟨e, s.ackFor e⟩], by simp, by simpa [lineAfter] using (hr.2 s.rstLine []).symm⟩

/-! ### How an operation ends -/

theorem conclude_of_answering {s t : State} (h : s.answersLeft = none) : s.conclude t = .next t := by
  simp [State.conclude, h]

/-- Concluding an operation answers its end, with at most the count of answers left taken down, or the silent stop. -/
theorem conclude_next {s t u : State} (h : s.conclude t = .next u) : ∃ n, u = { t with answersLeft := n } ∧
    (s.answersLeft = none → n = t.answersLeft) := by
  unfold State.conclude at h
  split at h
  · simp only [Host.Outcome.next.injEq] at h; exact ⟨t.answersLeft, by simp [← h], fun _ => rfl⟩
  · rename_i k hk
    split at h
    · simp only [Host.Outcome.next.injEq] at h; exact ⟨_, h.symm, by simp [hk]⟩
    · simp at h

theorem conclude_not_refused {s t : State} {r : Refusal} : s.conclude t ≠ .refused r := by
  unfold State.conclude
  split
  · simp
  · split <;> simp

/-- A bus operation answers a next state in one of two ways: all of its actions ran and the status is OK, or an event was
acknowledged ERR and the status is TransportError. `n` is what is left of the environment's answers. -/
theorem busOp_next {s u : State} {acts : List BusAct} {onErr : State → State} (h : s.busOp acts onErr = .next u) :
    (∃ n, (s.answersLeft = none → n = none) ∧ (runActs acts s).2 = .ok ∧
      u = { (runActs acts s).1.finish with answersLeft := n }) ∨
    (∃ n, (s.answersLeft = none → n = (onErr (runActs acts s).1).answersLeft) ∧ (runActs acts s).2 = .err ∧
      u = { (onErr (runActs acts s).1).respond .transportError [] with answersLeft := n }) := by
  unfold State.busOp at h
  obtain ⟨n, hu, hn⟩ := conclude_next h
  have hf := (runActs_frame acts s).2.2.2.2.2.2.1
  cases hr : runActs acts s with
  | mk t a =>
    rw [hr] at hu hn hf
    cases a with
    | ok =>
      refine .inl ⟨n, fun h => ?_, rfl, by simpa using hu⟩
      have hn' := hn h
      simp only [State.finish_eq, State.respond_answersLeft] at hn' hf
      rw [hn', hf, h]
    | err => exact .inr ⟨n, fun h => by simpa using hn h, rfl, by simpa using hu⟩

/-- A bus operation all of whose events are acknowledged OK. -/
theorem busOp_of_all_ok {s : State} {acts : List BusAct} {onErr : State → State}
    (h : AllOk s (answerCount (actEvents acts))) : s.busOp acts onErr = .next (runActs acts s).1.finish := by
  have := (runActs_of_all_ok h.2).1
  unfold State.busOp
  rw [conclude_of_answering h.1]
  cases hr : runActs acts s with
  | mk t a => rw [hr] at this; simp only [] at this; subst this; rfl

/-- A bus operation whose event with the `k`-th answer is acknowledged ERR. -/
theorem busOp_of_fails {s : State} {acts : List BusAct} {onErr : State → State} {k : Nat}
    (hk : k < answerCount (actEvents acts)) (h : FailsAt s k) :
    s.busOp acts onErr = .next ((onErr (runActs acts s).1).respond .transportError []) := by
  have := (runActs_of_fails hk h.2).1
  unfold State.busOp
  rw [conclude_of_answering h.1]
  cases hr : runActs acts s with
  | mk t a => rw [hr] at this; simp only [] at this; subst this; rfl

/-- The frame of a bus operation, whatever its end. -/
theorem finish_runActs_kept (s : State) (acts : List BusAct) : KeptButBus s (runActs acts s).1.finish := by
  have := runActs_frame acts s
  simp [KeptButBus, this]

theorem busOp_not_refused {s : State} {acts : List BusAct} {onErr : State → State} {r : Refusal} :
    s.busOp acts onErr ≠ .refused r := conclude_not_refused

/-! ### The framebuffer stays within N_PIX -/

/-- Writes within `N_PIX` keep every listed address within it (R22, R33). -/
theorem fbSetAll_inRange {m ws : List FbCell} {n : Nat} (hm : ∀ c ∈ m, c.1 < n) (hw : ∀ c ∈ ws, c.1 < n) :
    ∀ c ∈ fbSetAll m ws, c.1 < n := fun c hc => (mem_fbSetAll hc).elim (hw c) (hm c)

theorem fbWriteAll_wf (s : State) (ws : List FbCell) (h : fbWf s.fb = true) : fbWf (s.fbWriteAll ws).fb = true :=
  fbSetAll_wf ws h

theorem fbWrite_wf (s : State) (a : Nat) (v : Word) (h : fbWf s.fb = true) : fbWf (s.fbWrite a v).fb = true :=
  fbSet_wf a v h

/-! ### Ends of a bus operation, in full -/

/-- What a bus operation leaves when every event it sends is acknowledged OK. -/
theorem busOp_end_ok {s : State} {acts : List BusAct} {onErr : State → State} (es : List Event) (he : actEvents acts = es)
    (n : Nat) (hn : answerCount es = n) (h : AllOk s n) :
    ∃ t, s.busOp acts onErr = .next t ∧ t = (runActs acts s).1.finish ∧ (runActs acts s).2 = .ok ∧
      t.trace = s.trace ++ acked es ∧ KeptButBus s t ∧ t.acks = s.acks.drop n ∧ t.answersLeft = none := by
  subst he hn
  have hr := runActs_of_all_ok h.2
  have hf := runActs_frame acts s
  refine ⟨_, busOp_of_all_ok h, rfl, hr.1, ?_, finish_runActs_kept s acts, ?_, ?_⟩
  · simpa using runActs_trace_ok hr.1
  · simpa using hr.2
  · simp [hf, h.1]

/-- What a bus operation leaves when the event with the `k`-th answer is acknowledged ERR. -/
theorem busOp_end_err {s : State} {acts : List BusAct} {onErr : State → State} (es : List Event)
    (he : actEvents acts = es) (k : Nat) (hk : k < answerCount es) (h : FailsAt s k) :
    (runActs acts s).2 = .err ∧
    s.busOp acts onErr = .next ((onErr (runActs acts s).1).respond .transportError []) ∧
    (runActs acts s).1.trace = s.trace ++ failAt k es ∧ (runActs acts s).1.acks = s.acks.drop (k + 1) := by
  subst he
  obtain ⟨h1, h2, h3⟩ := runActs_of_fails hk h.2
  exact ⟨h1, busOp_of_fails hk h, h2, h3⟩

/-- The records up to a failing event are records of the events. -/
theorem mem_failAt {k : Nat} {es : List Event} {r : BusRecord} (h : r ∈ failAt k es) : r.event ∈ es := by
  induction es generalizing k with
  | nil => simp [failAt] at h
  | cons e es ih =>
    cases hd : isDelay e with
    | true =>
      obtain ⟨d, rfl⟩ := eq_delay_of_isDelay hd
      rw [failAt_delay] at h
      rcases List.mem_cons.mp h with rfl | h
      · simp
      · exact List.mem_cons_of_mem _ (ih h)
    | false =>
      cases k with
      | zero => rw [failAt_zero _ hd] at h; simp at h; simp [h]
      | succ k =>
        rw [failAt_succ _ _ hd] at h
        rcases List.mem_cons.mp h with rfl | h
        · simp
        · exact List.mem_cons_of_mem _ (ih h)

/-- The records a list of actions appends are of its events, and a DELAY among them is acknowledged OK (R78). -/
theorem runActs_new (acts : List BusAct) (s : State) :
    ∃ new, (runActs acts s).1.trace = s.trace ++ new ∧ (∀ r ∈ new, r.event ∈ actEvents acts) ∧
      (∀ r ∈ new, isDelay r.event = true → r.ack = .ok) := by
  cases h : (runActs acts s).2 with
  | ok =>
    refine ⟨_, runActs_trace_ok h, fun r hr => ?_, fun r hr => ?_⟩ <;>
      (simp only [acked, List.mem_map] at hr; obtain ⟨e, he, rfl⟩ := hr)
    · exact he
    · simp
  | err =>
    obtain ⟨b, e, r, h1, h2, h3⟩ := runActs_trace_err h
    refine ⟨_, h3, fun x hx => ?_, fun x hx => ?_⟩ <;>
      simp only [acked, List.mem_append, List.mem_map, List.mem_singleton] at hx
    · rw [h1]
      rcases hx with ⟨e, he, rfl⟩ | rfl <;> simp [*]
    · rcases hx with ⟨e, he, rfl⟩ | rfl <;> simp [h2]

/-- Concluding an operation answers a next state, or stops because the environment fell silent. -/
theorem conclude_or (s t : State) :
    (∃ u, s.conclude t = .next u) ∨ (s.conclude t = .fault .neverAnswered ∧ ∃ k, s.answersLeft = some k) := by
  unfold State.conclude
  split
  · exact .inl ⟨_, rfl⟩
  · split
    · exact .inl ⟨_, rfl⟩
    · exact .inr ⟨rfl, _, by assumption⟩

/-- A response word tells its status and its `SEQ_STATE` apart (R70). -/
theorem respWord_inj {st st' : Status} {q q' : SeqState} (h : respWord st q = respWord st' q') : st = st' ∧ q = q' := by
  revert h
  cases st <;> cases st' <;> cases q <;> cases q' <;> decide

end Sys2Proof.Machine
end

