-- ==== Sys2Proof/Laws/Region.lean ====
section
/-! SUPPORT. The address decoder, the translator's checks and the common procedure of the region operations, each in one
lemma. -/

namespace Sys2Proof.Machine

open Sys2Proof.Claims

/-! ### The address decoder (R43, R44) -/

theorem fbAddr_some {c : Config} {x y : Word} {a : Nat} (h : fbAddr c x y = some a) :
    x.toNat < c.fbW.toNat ∧ y.toNat < c.fbH.toNat ∧ a = y.toNat * c.fbW.toNat + x.toNat := by
  unfold fbAddr at h
  split at h
  · rename_i hb; exact ⟨hb.1, hb.2, by simpa using h.symm⟩
  · simp at h

theorem fbAddr_of_lt {c : Config} {x y : Word} (hx : x.toNat < c.fbW.toNat) (hy : y.toNat < c.fbH.toNat) :
    fbAddr c x y = some (y.toNat * c.fbW.toNat + x.toNat) := by simp [fbAddr, hx, hy]

/-- The row-major address of a pixel inside a grid is inside the grid. -/
theorem rowMajor_lt {x y w h : Nat} (hx : x < w) (hy : y < h) : y * w + x < w * h := by
  calc y * w + x < y * w + w := by omega
    _ = (y + 1) * w := by ring
    _ ≤ h * w := Nat.mul_le_mul_right _ hy
    _ = w * h := Nat.mul_comm _ _

theorem fbAddr_lt_nPix {c : Config} {x y : Word} {a : Nat} (h : fbAddr c x y = some a) : a < c.nPix := by
  obtain ⟨hx, hy, rfl⟩ := fbAddr_some h
  exact rowMajor_lt hx hy

/-! ### The translator (R141 to R145) -/

/-- A region that is sent passed every check, in the order of R152; what the window then is (R145). -/
theorem translateRegion_window {c : Config} {r : Region} {d : SourceDesc} {w : Window} (h : translateRegion c r d = .window w) :
    w = clampToPanel c r ∧ r.x0.toNat < r.x1.toNat ∧ r.y0.toNat < r.y1.toNat ∧
    r.x0.toNat < c.panelW.toNat ∧ r.y0.toNat < c.panelH.toNat ∧
    d.ox ≤ w.x0 ∧ d.oy ≤ w.y0 ∧ w.x1c ≤ d.ox + d.bw ∧ w.y1c ≤ d.oy + d.bh := by
  unfold translateRegion at h
  split at h
  · simp at h
  · split at h
    · simp at h
    · split at h
      · simp at h
      · split at h
        · simp at h
        · rename_i h1 h2 h3 h4
          simp only [Translation.window.injEq] at h
          subst h
          simp only [outsideSource, Bool.or_eq_true, decide_eq_true_eq] at h4
          refine ⟨rfl, ?_, ?_, ?_, ?_, ?_, ?_, ?_, ?_⟩ <;> omega

/-- A region that raises a status: inverted, outside the panel, or beyond the source (R141, R144, R145). -/
theorem translateRegion_rejected {c : Config} {r : Region} {d : SourceDesc} {st : Status} (h : translateRegion c r d = .rejected st) :
    st = .invalidRegion ∨ st = .outOfBounds := by
  unfold translateRegion at h
  split at h
  · exact .inl (by simpa using h.symm)
  · split at h
    · simp at h
    · split at h
      · exact .inr (by simpa using h.symm)
      · split at h
        · exact .inr (by simpa using h.symm)
        · simp at h

/-- A window that is sent is not empty and lies on the panel (R145). -/
theorem translateRegion_window_bounds {c : Config} {r : Region} {d : SourceDesc} {w : Window} (h : translateRegion c r d = .window w) :
    w.x0 < w.x1c ∧ w.y0 < w.y1c ∧ w.x1c ≤ c.panelW.toNat ∧ w.y1c ≤ c.panelH.toNat := by
  obtain ⟨rfl, h1, h2, h3, h4, _⟩ := translateRegion_window h
  simp only [clampToPanel]
  omega

/-! ### The walk (R147) -/

/-- The walk visits `area` pixels (R147). -/
theorem windowWalk_length (w : Window) : (windowWalk w).length = windowArea w := by
  simp [windowWalk, windowArea, Nat.mul_comm]

/-- The pixels the walk visits are those of the window (R46, R147). -/
theorem mem_windowWalk {w : Window} {p : Nat × Nat} :
    p ∈ windowWalk w ↔ w.x0 ≤ p.1 ∧ p.1 < w.x0 + (w.x1c - w.x0) ∧ w.y0 ≤ p.2 ∧ p.2 < w.y0 + (w.y1c - w.y0) := by
  obtain ⟨x, y⟩ := p
  simp only [windowWalk, List.mem_flatMap, List.mem_map, List.mem_range'_1, Prod.mk.injEq]
  constructor
  · rintro ⟨cy, h1, cx, h2, rfl, rfl⟩; omega
  · rintro ⟨h1, h2, h3, h4⟩; exact ⟨y, ⟨h3, h4⟩, x, ⟨h1, h2⟩, rfl, rfl⟩

theorem issueEvents_not_delay {c : Config} {op : Command} {e : Event} (h : e ∈ issueEvents c op) : isDelay e = false := by
  simp only [issueEvents, List.mem_cons, List.mem_map] at h
  rcases h with rfl | ⟨b, _, rfl⟩ <;> rfl

/-- No event of a region operation is a DELAY (R159). -/
theorem regionEvents_not_delay {s : State} {d : SourceDesc} {w : Window} {e : Event} (h : e ∈ s.regionEvents d w) :
    isDelay e = false := by
  simp only [State.regionEvents, windowEvents, State.pixelEvents, List.mem_append, List.mem_flatMap, List.mem_map] at h
  rcases h with ((h | h) | h) | ⟨_, _, _, _, rfl⟩
  · exact issueEvents_not_delay h
  · exact issueEvents_not_delay h
  · exact issueEvents_not_delay h
  · rfl

theorem windowEvents_length (c : Config) (w : Window) : (windowEvents c w).length = 11 := by
  simp [windowEvents, issueEvents, commandParams, coordBytes]

theorem pixelEvents_length (s : State) (d : SourceDesc) (w : Window) :
    (s.pixelEvents d w).length = 2 * windowArea w := by
  rw [← windowWalk_length, State.pixelEvents]
  induction windowWalk w with
  | nil => rfl
  | cons p ps ih =>
    rw [List.flatMap_cons, List.length_append, ih, List.length_cons]
    cases hk : d.kind <;> simp [State.pixelBytes, hk, unpack] <;> omega

/-- The exact number of events of a region operation that is sent (R156). -/
theorem regionEvents_length (s : State) (d : SourceDesc) (w : Window) :
    (s.regionEvents d w).length = 11 + 2 * windowArea w := by
  rw [State.regionEvents, List.length_append, windowEvents_length, pixelEvents_length]

/-! ### The common procedure (R152) -/

/-- The three ways `RegionCore` answers a next state: a status before any effect, the zero-area no-op, or a bus operation
over the events of the clamped window. -/
theorem regionCore_next {s t : State} {r : Region} {d : SourceDesc} (h : s.regionCore r d = .next t) :
    (∃ st, translateRegion s.cfg r d = .rejected st ∧ t = s.respond st []) ∨
    (translateRegion s.cfg r d = .nothing ∧ t = s.respond .ok []) ∨
    (∃ w, translateRegion s.cfg r d = .window w ∧ s.busOp ((s.regionEvents d w).map .emit) (fun t => t) = .next t) := by
  unfold State.regionCore at h
  split at h
  · rename_i st hst; simp only [Host.Outcome.next.injEq] at h; exact .inl ⟨st, hst, by simp [← h]⟩
  · rename_i hn; simp only [Host.Outcome.next.injEq] at h; exact .inr (.inl ⟨hn, by simp [← h]⟩)
  · rename_i w hw; exact .inr (.inr ⟨w, hw, h⟩)

/-- The region operations write neither the framebuffer nor `SEQ_STATE` nor `RST_LINE` (R159). -/
theorem regionCore_frame {s t : State} {r : Region} {d : SourceDesc} (h : s.regionCore r d = .next t) :
    t.cfg = s.cfg ∧ t.fb = s.fb ∧ t.seq = s.seq ∧ t.rstLine = s.rstLine ∧ t.host = s.host ∧ t.src = [] ∧ t.img = [] := by
  rcases regionCore_next h with ⟨st, _, rfl⟩ | ⟨_, rfl⟩ | ⟨w, _, hb⟩
  · simp
  · simp
  · have hf := runActs_frame ((s.regionEvents d w).map .emit) s
    have he := runActs_emit_frame (s.regionEvents d w) s
    rcases busOp_next hb with ⟨n, _, _, rfl⟩ | ⟨n, _, _, rfl⟩ <;> simp [hf, he]

/-! ### The events spelled out -/

/-- Two places of a grid with one row-major address are the same place. -/
theorem rowMajor_inj {w a b i j : Nat} (hi : i < w) (hj : j < w) (h : a * w + i = b * w + j) : a = b ∧ i = j := by
  have h1 : (a * w + i) / w = a := by rw [Nat.mul_comm, Nat.mul_add_div (by omega), Nat.div_eq_of_lt hi]; rfl
  have h2 : (b * w + j) / w = b := by rw [Nat.mul_comm, Nat.mul_add_div (by omega), Nat.div_eq_of_lt hj]; rfl
  have hab : a = b := by rw [← h1, ← h2, h]
  subst hab
  omega

/-- The bytes of a word in order are its big-endian bytes (R47, R150). -/
theorem unpack_eq (v : Word) : unpack v = [BitVec.ofNat 8 (v.toNat / 256), BitVec.ofNat 8 (v.toNat % 256)] := by
  have := v.isLt
  simp only [unpack, hiByte, loByte, List.cons.injEq, and_true]
  constructor <;> apply BitVec.eq_of_toNat_eq <;> simp [Nat.shiftRight_eq_div_pow]

theorem map_data_unpack (v : Word) : (unpack v).map Event.data = bigEndian v.toNat := by rw [unpack_eq]; rfl

theorem range'_eq_map (a n : Nat) : List.range' a n = (List.range n).map (a + ·) := by
  rw [List.range_eq_range', List.map_add_range']
  simp

/-- The walk of R147, by row and column counted from the window's corner. -/
theorem windowWalk_eq (w : Window) : windowWalk w =
    (List.range (w.y1c - w.y0)).flatMap fun j => (List.range (w.x1c - w.x0)).map fun i => (w.x0 + i, w.y0 + j) := by
  simp only [windowWalk, range'_eq_map, List.flatMap_map, List.map_map]
  rfl

theorem windowEvents_eq (c : Config) (w : Window) (h1 : w.x0 < 65536) (h2 : w.x1c ≤ 65536) (h3 : w.y0 < 65536)
    (h4 : w.y1c ≤ 65536) : windowEvents c w = windowSequence c w.x0 (w.x1c - 1) w.y0 (w.y1c - 1) := by
  have key : ∀ n, n < 65536 → bigEndian n = [.data (hiByte (BitVec.ofNat 16 n)), .data (loByte (BitVec.ofNat 16 n))] := by
    intro n hn
    have := map_data_unpack (BitVec.ofNat 16 n)
    rw [BitVec.toNat_ofNat, Nat.mod_eq_of_lt hn] at this
    exact this.symm
  simp only [windowEvents, windowSequence, issueEvents, commandByte, commandParams, coordBytes]
  rw [key _ h1, key _ (by omega : w.x1c - 1 < 65536), key _ h3, key _ (by omega : w.y1c - 1 < 65536)]
  rfl

theorem pixelEvents_fb (s : State) (w : Window) : s.pixelEvents (sourceFb s.cfg) w =
    fbPixelSequence s w.x0 w.y0 (w.x1c - w.x0) (w.y1c - w.y0) := by
  simp only [State.pixelEvents, windowWalk_eq, fbPixelSequence, List.flatMap_assoc, List.flatMap_map, State.pixelBytes,
    sourceFb, map_data_unpack, pixelIndex, Nat.sub_zero]

/-- A window inside the whole rows of an image reads only bytes the side data holds. -/
theorem pixelEvents_img (s : State) (x0 y0 x1 y1 : Word) (len : BitVec 32) (w : Window) (hl : s.img.length = len.toNat)
    (hx : w.x0 = x0.toNat) (hy : w.y0 = y0.toNat) (hw : w.x1c ≤ x1.toNat) (h0 : w.x0 < x1.toNat)
    (hh : w.y1c - w.y0 ≤ len.toNat / (2 * (x1.toNat - x0.toNat))) :
    s.pixelEvents (sourceImg ⟨x0, y0, x1, y1⟩ len) w =
      imgPixelSequence s.img (x1.toNat - x0.toNat) (w.x1c - w.x0) (w.y1c - w.y0) := by
  simp only [State.pixelEvents, windowWalk_eq, imgPixelSequence, List.flatMap_assoc, List.flatMap_map, State.pixelBytes,
    sourceImg, pixelIndex, hx, hy, Nat.add_sub_cancel_left]
  have hl2 : len.toNat / (2 * (x1.toNat - x0.toNat)) * (2 * (x1.toNat - x0.toNat)) ≤ len.toNat := Nat.div_mul_le_self _ _
  rw [← hx, ← hy]
  refine List.flatMap_congr fun j hj => List.flatMap_congr fun i hi => ?_
  simp only [List.mem_range] at hj hi
  have hb : 2 * (j * (x1.toNat - w.x0) + i) + 1 < s.img.length := by
    rw [hl]
    refine lt_of_lt_of_le ?_ hl2
    rw [hx] at *
    have hrow : (j + 1) * (2 * (x1.toNat - x0.toNat)) ≤
        len.toNat / (2 * (x1.toNat - x0.toNat)) * (2 * (x1.toNat - x0.toNat)) := Nat.mul_le_mul_right _ (by omega)
    refine lt_of_lt_of_le ?_ hrow
    rw [Nat.add_mul]
    have e : j * (2 * (x1.toNat - x0.toNat)) = 2 * (j * (x1.toNat - x0.toNat)) := by ring
    omega
  simp [State.imgRead, List.getElem?_eq_getElem hb, List.getElem?_eq_getElem (Nat.lt_of_succ_lt hb)]

/-- No event of a region operation is a RST event (R26). -/
theorem regionEvents_ne_rst {s : State} {d : SourceDesc} {w : Window} {e : Event} (h : e ∈ s.regionEvents d w)
    (l : BitVec 1) : e ≠ .rst l := by
  simp only [State.regionEvents, windowEvents, State.pixelEvents, List.mem_append, List.mem_flatMap, List.mem_map] at h
  have hi : ∀ op, e ∈ issueEvents s.cfg op → e ≠ .rst l := by
    intro op he
    simp only [issueEvents, List.mem_cons, List.mem_map] at he
    rcases he with rfl | ⟨b, _, rfl⟩ <;> simp
  rcases h with ((h | h) | h) | ⟨_, _, _, _, rfl⟩
  · exact hi _ h
  · exact hi _ h
  · exact hi _ h
  · simp

theorem answerCount_regionEvents (s : State) (d : SourceDesc) (w : Window) :
    answerCount (s.regionEvents d w) = 11 + 2 * windowArea w := by
  rw [← regionEvents_length s d w, answerCount, List.filter_eq_self.mpr]
  intro e he
  simp [regionEvents_not_delay he]

/-- A region that passes the checks of R141 to R145 is sent. -/
theorem translateRegion_of_checks {c : Config} {x0 y0 x1 y1 : Word} {d : SourceDesc} (h1 : x0.toNat < x1.toNat)
    (h2 : y0.toNat < y1.toNat) (h3 : x0.toNat < c.panelW.toNat) (h4 : y0.toNat < c.panelH.toNat)
    (hd : outsideSource (clampToPanel c ⟨x0, y0, x1, y1⟩) d = false) :
    translateRegion c ⟨x0, y0, x1, y1⟩ d = .window (clampToPanel c ⟨x0, y0, x1, y1⟩) := by
  unfold translateRegion
  rw [if_neg (by simp; omega), if_neg (by simp; omega), if_neg (by simp; omega), if_neg (by simp [hd])]

/-- `RegionCore` over a window with every event acknowledged OK. -/
theorem regionCore_end_ok {s : State} {r : Region} {d : SourceDesc} {w : Window}
    (ht : translateRegion s.cfg r d = .window w) (h : AllOk s (11 + 2 * windowArea w)) :
    ∃ t, s.regionCore r d = .next t ∧ t.trace = s.trace ++ acked (s.regionEvents d w) ∧
      t.response = [respWord .ok s.seq] ∧ t.seq = s.seq ∧ t.rstLine = s.rstLine ∧ KeptButBus s t ∧
      t.acks = s.acks.drop (11 + 2 * windowArea w) ∧ t.answersLeft = none := by
  obtain ⟨t, h1, h2, _, h4, h5, h6, h7⟩ := busOp_end_ok (acts := (s.regionEvents d w).map .emit) (onErr := fun t => t) _
    (actEvents_map_emit _) _ (answerCount_regionEvents s d w) h
  have he := runActs_emit_frame (s.regionEvents d w) s
  refine ⟨t, by simp only [State.regionCore, ht, h1], h4, ?_, ?_, ?_, h5, h6, h7⟩ <;> simp [h2, he]

/-- `RegionCore` over a window with the event of the `k`-th answer acknowledged ERR. -/
theorem regionCore_end_err {s : State} {r : Region} {d : SourceDesc} {w : Window} {k : Nat}
    (ht : translateRegion s.cfg r d = .window w) (hk : k < 11 + 2 * windowArea w) (h : FailsAt s k) :
    ∃ t, s.regionCore r d = .next t ∧ t.trace = s.trace ++ failAt k (s.regionEvents d w) ∧
      t.response = [respWord .transportError s.seq] ∧ t.seq = s.seq ∧ t.rstLine = s.rstLine ∧ KeptButBus s t ∧
      t.acks = s.acks.drop (k + 1) ∧ t.answersLeft = none := by
  obtain ⟨_, h2, h3, h4⟩ := busOp_end_err (acts := (s.regionEvents d w).map .emit) (onErr := fun t => t) _
    (actEvents_map_emit _) k (answerCount_regionEvents s d w ▸ hk) h
  have he := runActs_emit_frame (s.regionEvents d w) s
  have hf := runActs_frame ((s.regionEvents d w).map .emit) s
  refine ⟨_, by simp only [State.regionCore, ht]; exact h2, by simpa using h3, ?_, ?_, ?_, by simp [KeptButBus, hf],
    by simpa using h4, by simp [hf, h.1]⟩ <;> simp [he]

end Sys2Proof.Machine
end

