-- ==== Sys2Proof/Laws/Sequencer.lean ====
section
/-! SUPPORT. The action list of INIT: its events are those of R101 spelled out, it ends in READY, and every write of the
reset line comes with its RST event. -/

namespace Sys2Proof.Machine

open Sys2Proof.Claims

/-- The events of INIT's actions are the sequence of R101. -/
theorem initActs_events (c : Config) (o : Orientation) : actEvents (initActs c o) = initSequence c o := by
  have ht : ∀ ts : List TuningEntry, actEvents (ts.flatMap fun t => issue c (.tuning t)) =
      ts.flatMap fun e => .cmd e.command :: e.params.map .data := by
    intro ts
    induction ts with
    | nil => rfl
    | cons t ts ih => rw [List.flatMap_cons, actEvents_append, ih, List.flatMap_cons, issue, actEvents_map_emit]; rfl
  have hi : ∀ op, actEvents (issue c op) = issueEvents c op := fun op => actEvents_map_emit _
  simp only [initActs, resetStep, wakeStep, configStep, tuneStep, displayOnStep, actEvents_append, actEvents, ht, hi, List.cons_append, List.append_assoc, List.nil_append]
  simp [issueEvents, commandByte, commandParams, initSequence, Config.released]

/-- INIT's actions end in READY (R108). -/
theorem initActs_lastSeq (c : Config) (o : Orientation) (q : SeqState) : lastSeq q (initActs c o) = .ready := by
  unfold initActs
  rw [lastSeq_append]
  rfl

theorem lineMatched_emits (es : List Event) (h : ∀ e ∈ es, ∀ l, e ≠ .rst l) (rest : List BusAct) :
    lineMatched (es.map .emit ++ rest) = lineMatched rest := by
  induction es with
  | nil => rfl
  | cons e es ih =>
    have := ih fun x hx => h x (List.mem_cons_of_mem _ hx)
    cases e with
    | rst l => exact absurd rfl (h _ List.mem_cons_self l)
    | _ => simpa [lineMatched] using this

theorem issueEvents_ne_rst (c : Config) (op : Command) : ∀ e ∈ issueEvents c op, ∀ l, e ≠ .rst l := by
  intro e he l
  simp only [issueEvents, List.mem_cons, List.mem_map] at he
  rcases he with rfl | ⟨b, _, rfl⟩ <;> simp

theorem lineMatched_issue (c : Config) (op : Command) (rest : List BusAct) :
    lineMatched (issue c op ++ rest) = lineMatched rest := lineMatched_emits _ (issueEvents_ne_rst c op) rest

/-- INIT writes the line only together with the RST event (R101, R102). -/
theorem initActs_lineMatched (c : Config) (o : Orientation) : lineMatched (initActs c o) = true := by
  have ht : ∀ (ts : List TuningEntry) (rest : List BusAct),
      lineMatched ((ts.flatMap fun t => issue c (.tuning t)) ++ rest) = lineMatched rest := by
    intro ts rest
    induction ts with
    | nil => rfl
    | cons t ts ih => rw [List.flatMap_cons, List.append_assoc, lineMatched_issue, ih]
  simp [initActs, resetStep, wakeStep, configStep, tuneStep, displayOnStep, lineMatched, lineMatched_issue, ht]

/-- The released level of the line is not the active one. -/
theorem released_ne_active (c : Config) : c.released ≠ c.rstActive := by
  have : ∀ b : BitVec 1, 1#1 - b ≠ b := by decide
  exact this _

/-- INIT drives the line active, then released, and no event after that is a RST event (R102). -/
theorem initSequence_tail (c : Config) (o : Orientation) :
    ∃ tl, initSequence c o = [.rst c.rstActive, .delay .rstHold, .rst (1 - c.rstActive)] ++ tl ∧
      ∀ e ∈ tl, ∀ k, e ≠ .rst k := by
  refine ⟨_, by simp only [initSequence, List.cons_append, List.nil_append]; rfl, ?_⟩
  intro e he k
  simp only [List.mem_cons, List.mem_append, List.mem_flatMap, List.mem_map, List.not_mem_nil, or_false] at he
  rintro rfl
  simp at he

end Sys2Proof.Machine
end

