-- ==== Sys2Proof/Laws/Exec.lean ====
section
/-! SUPPORT. What an operation can do, said once for all nine, and what a step can do: the lemmas an invariant's proof cites
instead of unfolding the meanings. -/

namespace Sys2Proof.Machine

open Sys2Proof.Claims

/-- The ways an operation answers a next state. -/
inductive ExecKind (i : Instr) (s t : State) : Prop
  /-- A status before any effect (R184). -/
  | reject (st : Status) (hst : st = .outOfBounds ∨ st = .invalidRegion ∨ st = .illegalCommand)
      (hs : st ∈ allowedStatuses i) (eq : t = s.respond st [])
  /-- A region of zero area (R142, R125). -/
  | nothing (hr : isReadPixel i = false) (hs : Status.ok ∈ allowedStatuses i) (eq : t = s.respond .ok [])
  /-- FB_READ_PIXEL with a value (R123). -/
  | read (v : Word) (hr : isReadPixel i = true) (hs : Status.ok ∈ allowedStatuses i) (eq : t = s.respond .ok [v])
  /-- Framebuffer words written, all inside `N_PIX` (R121, R122, R124). -/
  | write (ws : List FbCell) (hw : writesFb i = true) (hr : isReadPixel i = false)
      (hs : Status.ok ∈ allowedStatuses i) (hin : ∀ w ∈ ws, w.1 < s.cfg.nPix)
      (eq : t = (s.fbWriteAll ws).respond .ok [])
  /-- INIT with a supported orientation (R101). -/
  | init (o : Orientation) (hi : i = .init o)
      (run : (s.busOp (initActs s.cfg o) (fun t => t.setSeq .failed)) = .next t)
  /-- A bus operation that only emits, neither DELAY nor RST (R112, R152). -/
  | bus (es : List Event) (hi : isInit i = false) (hf : isFramebufferOp i = false)
      (hes : ∀ e ∈ es, isDelay e = false ∧ ∀ l, e ≠ .rst l)
      (hs : Status.ok ∈ allowedStatuses i ∧ Status.transportError ∈ allowedStatuses i)
      (run : s.busOp (es.map .emit) (fun t => t) = .next t)

theorem regionCore_kind {i : Instr} {s t : State} {r : Region} {d : SourceDesc} (h : s.regionCore r d = .next t)
    (hi : isInit i = false) (hf : isFramebufferOp i = false) (hr : isReadPixel i = false)
    (hs : Status.ok ∈ allowedStatuses i ∧ Status.transportError ∈ allowedStatuses i ∧ Status.outOfBounds ∈ allowedStatuses i)
    (hv : translateRegion s.cfg r d ≠ .rejected .invalidRegion ∨ Status.invalidRegion ∈ allowedStatuses i) :
    ExecKind i s t := by
  rcases regionCore_next h with ⟨st, h1, rfl⟩ | ⟨_, rfl⟩ | ⟨w, _, hb⟩
  · rcases translateRegion_rejected h1 with rfl | rfl
    · exact .reject _ (by simp) (hv.resolve_left (by simp [h1])) rfl
    · exact .reject _ (by simp) hs.2.2 rfl
  · exact .nothing hr hs.1 rfl
  · exact .bus _ hi hf (fun e he => ⟨regionEvents_not_delay he, regionEvents_ne_rst he⟩) ⟨hs.1, hs.2.1⟩ hb

/-- The whole panel is never an inverted region (R154). -/
theorem panelRegion_not_inverted (c : Config) (d : SourceDesc) :
    translateRegion c (panelRegion c) d ≠ .rejected .invalidRegion := by
  have h0 : ¬((panelRegion c).x1.toNat < (panelRegion c).x0.toNat ∨ (panelRegion c).y1.toNat < (panelRegion c).y0.toNat) := by
    simp [panelRegion]
  unfold translateRegion
  rw [if_neg h0]
  split
  · simp
  · split
    · simp
    · split <;> simp

/-- Everything an operation can do when it answers a next state. -/
theorem exec_kind {i : Instr} {s t : State} (h : exec i s = .next t) : ExecKind i s t := by
  cases i with
  | init o =>
    simp only [exec, execInit] at h
    split at h
    · exact .init o rfl h
    · simp only [Host.Outcome.next.injEq] at h; exact .reject .illegalCommand (by simp) (by simp [allowedStatuses]) h.symm
  | setOrientation o =>
    simp only [exec, execSetOrientation] at h
    split at h
    · exact .bus (issueEvents s.cfg (.orientation o)) rfl rfl
        (fun e he => ⟨issueEvents_not_delay he, issueEvents_ne_rst _ _ _ he⟩) (by simp [allowedStatuses]) h
    · simp only [Host.Outcome.next.injEq] at h; exact .reject .illegalCommand (by simp) (by simp [allowedStatuses]) h.symm
  | fbClear c =>
    simp only [exec, execFbClear, Host.Outcome.next.injEq] at h
    exact .write _ rfl rfl (by simp [allowedStatuses]) (by simp) h.symm
  | fbWritePixel x y c =>
    simp only [exec, execFbWritePixel] at h
    split at h <;> simp only [Host.Outcome.next.injEq] at h
    · exact .reject .outOfBounds (by simp) (by simp [allowedStatuses]) h.symm
    · rename_i a ha
      exact .write [(a, c)] rfl rfl (by simp [allowedStatuses]) (by simpa using fbAddr_lt_nPix ha) h.symm
  | fbReadPixel x y =>
    simp only [exec, execFbReadPixel] at h
    split at h <;> simp only [Host.Outcome.next.injEq] at h
    · exact .reject .outOfBounds (by simp) (by simp [allowedStatuses]) h.symm
    · exact .read _ rfl (by simp [allowedStatuses]) h.symm
  | fbCopyRegion sx0 sy0 sx1 sy1 dx dy srcW srcH =>
    simp only [exec, execFbCopyRegion] at h
    split at h
    · simp only [Host.Outcome.next.injEq] at h; exact .reject .invalidRegion (by simp) (by simp [allowedStatuses]) h.symm
    · split at h
      · simp only [Host.Outcome.next.injEq] at h; exact .nothing rfl (by simp [allowedStatuses]) h.symm
      · split at h
        · simp only [Host.Outcome.next.injEq] at h; exact .reject .outOfBounds (by simp) (by simp [allowedStatuses]) h.symm
        · split at h <;> simp only [Host.Outcome.next.injEq] at h
          · exact .reject .outOfBounds (by simp) (by simp [allowedStatuses]) h.symm
          · refine .write _ rfl rfl (by simp [allowedStatuses]) (fun w hw => ?_) h.symm
            simp only [copyWrites, List.mem_flatMap, List.mem_map, List.mem_range] at hw
            obtain ⟨j, hj, k, hk, rfl⟩ := hw
            exact rowMajor_lt (by omega) (by omega)
  | showPanel =>
    exact regionCore_kind h rfl rfl rfl (by simp [allowedStatuses]) (.inl (panelRegion_not_inverted _ _))
  | showRegion x0 y0 x1 y1 =>
    exact regionCore_kind h rfl rfl rfl (by simp [allowedStatuses]) (.inr (by simp [allowedStatuses]))
  | drawImage x0 y0 x1 y1 len =>
    exact regionCore_kind h rfl rfl rfl (by simp [allowedStatuses]) (.inr (by simp [allowedStatuses]))

/-- What every operation leaves alone: the configuration and the host's later inputs; the side data is gone (R29, R40). -/
theorem exec_frame {i : Instr} {s t : State} (h : exec i s = .next t) :
    t.cfg = s.cfg ∧ t.host = s.host ∧ t.src = [] ∧ t.img = [] := by
  have hk := exec_kind h
  clear h
  cases hk with
  | reject st hst hs eq => subst eq; simp
  | nothing hr hs eq => subst eq; simp
  | read v hr hs eq => subst eq; simp
  | write ws hw hr hs hin eq => subst eq; simp
  | init o hi run =>
    have hf := runActs_frame (initActs s.cfg o) s
    rcases busOp_next run with ⟨n, _, _, rfl⟩ | ⟨n, _, _, rfl⟩ <;> simp [hf]
  | bus es hi hf hes hs run =>
    have hf := runActs_frame (es.map .emit) s
    rcases busOp_next run with ⟨n, _, _, rfl⟩ | ⟨n, _, _, rfl⟩ <;> simp [hf]

/-- Everything a step can do when it answers a next state: wait, take a block reset, run the packet's operation, or refuse
an illegal packet. -/
theorem step_next {s t : State} (h : step s = .next t) :
    (s.host = [] ∧ t = s) ∨
    (∃ l, s.host = .blockReset :: l ∧ t = s.blockReset l) ∨
    (∃ p l i, s.host = .packet p :: l ∧ decode p.words = .op i ∧ exec i (s.accept p l) = .next t) ∨
    (∃ p l why, s.host = .packet p :: l ∧ decode p.words = .illegal why ∧ t = (s.accept p l).respond .illegalCommand []) := by
  unfold step at h
  split at h
  · rename_i hh; simp only [Host.Outcome.next.injEq] at h; exact .inl ⟨hh, h.symm⟩
  · rename_i l hh; simp only [Host.Outcome.next.injEq] at h; exact .inr (.inl ⟨l, hh, h.symm⟩)
  · rename_i p l hh
    split at h
    · rename_i i hi; exact .inr (.inr (.inl ⟨p, l, i, hh, hi, h⟩))
    · rename_i why hi; simp only [Host.Outcome.next.injEq] at h; exact .inr (.inr (.inr ⟨p, l, why, hh, hi, h.symm⟩))

end Sys2Proof.Machine
end

