-- ==== Sys2Proof/Laws/PerInstr.lean ====
section
/-! SUPPORT. A fact of every operation as syntax, one lemma per constructor: the packet the encoder gives has the length
and the header fields of the opcode map (30_encoding.md R61, R63, R67). -/

namespace Sys2Proof

/-- The encoding has the length the opcode map gives the operation, its `OPC`, and `RSV` 0. -/
def Laws.EncodedLength.Statement (i : Instr) : Prop :=
  (encode i).length = packetLength (opcodeOfInstr i) ∧
    ∃ h, (encode i).head? = some h ∧ headerOpc h = opcodeByte (opcodeOfInstr i) ∧ headerRsv h = 0

theorem Laws.EncodedLength.init (o : Orientation) : Laws.EncodedLength.Statement (.init o) :=
  ⟨rfl, _, rfl, headerOpc_headerWord _ _, headerRsv_headerWord _ _⟩

theorem Laws.EncodedLength.setOrientation (o : Orientation) : Laws.EncodedLength.Statement (.setOrientation o) :=
  ⟨rfl, _, rfl, headerOpc_headerWord _ _, headerRsv_headerWord _ _⟩

theorem Laws.EncodedLength.fbClear (color : Word) : Laws.EncodedLength.Statement (.fbClear color) :=
  ⟨rfl, _, rfl, headerOpc_headerWord _ _, headerRsv_headerWord _ _⟩

theorem Laws.EncodedLength.fbWritePixel (x y color : Word) : Laws.EncodedLength.Statement (.fbWritePixel x y color) :=
  ⟨rfl, _, rfl, headerOpc_headerWord _ _, headerRsv_headerWord _ _⟩

theorem Laws.EncodedLength.fbReadPixel (x y : Word) : Laws.EncodedLength.Statement (.fbReadPixel x y) :=
  ⟨rfl, _, rfl, headerOpc_headerWord _ _, headerRsv_headerWord _ _⟩

theorem Laws.EncodedLength.fbCopyRegion (sx0 sy0 sx1 sy1 dx dy srcW srcH : Word) :
    Laws.EncodedLength.Statement (.fbCopyRegion sx0 sy0 sx1 sy1 dx dy srcW srcH) :=
  ⟨rfl, _, rfl, headerOpc_headerWord _ _, headerRsv_headerWord _ _⟩

theorem Laws.EncodedLength.showPanel : Laws.EncodedLength.Statement .showPanel :=
  ⟨rfl, _, rfl, headerOpc_headerWord _ _, headerRsv_headerWord _ _⟩

theorem Laws.EncodedLength.showRegion (x0 y0 x1 y1 : Word) : Laws.EncodedLength.Statement (.showRegion x0 y0 x1 y1) :=
  ⟨rfl, _, rfl, headerOpc_headerWord _ _, headerRsv_headerWord _ _⟩

theorem Laws.EncodedLength.drawImage (x0 y0 x1 y1 : Word) (len : BitVec 32) :
    Laws.EncodedLength.Statement (.drawImage x0 y0 x1 y1 len) :=
  ⟨rfl, _, rfl, headerOpc_headerWord _ _, headerRsv_headerWord _ _⟩

end Sys2Proof
end

