-- ==== Sys2Proof/Tests/Slice0.lean ====
section
/-! SUPPORT. Tests on fixed values, their expected results taken from 95_test_vectors.md (its section is named at each), and
for every obligation with hypotheses a state and operands that meet them together. -/

namespace Sys2Proof.Tests

open Sys2Proof Sys2Proof.Machine Sys2Proof.Claims

/-! ### Small states -/

/-- The reset state with the transport's next `n` answers OK. -/
def okState (n : Nat) : State := { State.reset with acks := List.replicate n .ok }

/-- The reset state with the transport's next `k` answers OK and then one ERR. -/
def errState (k : Nat) : State := { State.reset with acks := List.replicate k .ok ++ [.err] }

/-- The reset state with some framebuffer words defined. -/
def fbState (m : List FbCell) : State := { State.reset with fb := m }

/-- The configuration EX with the orientations 0 and 2 only (V1). -/
def twoOrient : Config := { Config.ex with supported := [.portrait, .portraitInverted] }

/-- The variant EX-NARROW of V6. -/
def narrow : Config := { Config.ex with fbW := 4 }

/-- A configuration with a panel and a framebuffer of two pixels. -/
def tiny : Config := { Config.ex with fbW := 2, fbH := 1, panelW := 2, panelH := 1 }

/-- The reset state of the two-pixel configuration with its two words defined and `n` answers OK. -/
def tinyState (n : Nat) : State := { State.resetOf tiny with fb := [(0, 0x1234), (1, 0xF800)], acks := List.replicate n .ok }

/-- The next state of an outcome. -/
def after : Host.Outcome State Fault Refusal → Option State
  | .next t => some t
  | _ => none

/-- The response and the trace after an operation. -/
def seen (i : Instr) (s : State) : Option (List Word × List BusRecord) := (after (exec i s)).map fun t => (t.response, t.trace)

/-- The response and one framebuffer word after an operation. -/
def seenWord (i : Instr) (s : State) (a : Nat) : Option (List Word × Option Word) :=
  (after (exec i s)).map fun t => (t.response, fbLookup t.fb a)

/-! ### WellFormed: each check refuses an ill-formed term -/

theorem test_wf_ex : Config.ex.wf = true := by decide
theorem test_wf_fbW : Config.wf { Config.ex with fbW := 0 } = false := by decide
theorem test_wf_fbH : Config.wf { Config.ex with fbH := 0 } = false := by decide
theorem test_wf_panelW : Config.wf { Config.ex with panelW := 0 } = false := by decide
theorem test_wf_panelH : Config.wf { Config.ex with panelH := 0 } = false := by decide
theorem test_wf_no_orientation : Config.wf { Config.ex with supported := [] } = false := by decide
theorem test_wf_init : Instr.wf twoOrient (.init .portrait) = true ∧ Instr.wf twoOrient (.init .landscape) = false := by
  decide
theorem test_wf_set_orientation : Instr.wf twoOrient (.setOrientation .portraitInverted) = true ∧
    Instr.wf twoOrient (.setOrientation .landscapeInverted) = false := by decide
theorem test_wf_copy_side_data : Instr.sideDataFits (.fbCopyRegion 0 0 2 2 5 4 2 2) [1, 2, 3, 4] [] = true ∧
    Instr.sideDataFits (.fbCopyRegion 0 0 2 2 5 4 2 2) [1, 2, 3] [] = false := by decide
theorem test_wf_image_side_data : Instr.sideDataFits (.drawImage 0 0 1 1 2) [] [0xAB, 0xCD] = true ∧
    Instr.sideDataFits (.drawImage 0 0 1 1 2) [] [0xAB] = false := by decide
theorem test_wf_stray_side_data : Instr.sideDataFits .showPanel [] [] = true ∧
    Instr.sideDataFits .showPanel [1] [] = false := by decide

/-! ### Decoding: the header word bit by bit, `OPC` in bits 15:8, `RSV` in 7:2, `ORI` in 1:0 (R61, R63; V1) -/

theorem test_decode_init : decode [0b0000000100000011] = .op (.init .landscapeInverted) := by decide
theorem test_decode_set_orientation : decode [0b0000001000000010] = .op (.setOrientation .portraitInverted) := by decide
theorem test_decode_fb_clear : decode [0b0001000000000000, 0x1234] = .op (.fbClear 0x1234) := by decide
theorem test_decode_fb_write_pixel : decode [0b0001000100000000, 2, 1, 0xF800] = .op (.fbWritePixel 2 1 0xF800) := by decide
theorem test_decode_fb_read_pixel : decode [0b0001001000000000, 7, 5] = .op (.fbReadPixel 7 5) := by decide
theorem test_decode_fb_copy_region : decode [0b0001001100000000, 0, 0, 2, 3, 5, 4, 6, 7] = .op (.fbCopyRegion 0 0 2 3 5 4 6 7) := by decide
theorem test_decode_show : decode [0b0010000000000000] = .op .showPanel := by decide
theorem test_decode_show_region : decode [0b0010000100000000, 6, 4, 10, 9] = .op (.showRegion 6 4 10 9) := by decide
/-- `L = {w[5], w[6]}`, the high half first (R62). -/
theorem test_decode_draw_image : decode [0b0010001000000000, 0, 0, 1, 1, 1, 0] = .op (.drawImage 0 0 1 1 65536) := by decide

theorem test_illegal_rsv : decode [0x0104] = .illegal .reservedBits ∧ decode [0x0180] = .illegal .reservedBits := by decide
theorem test_illegal_ori : decode [0x1001, 5] = .illegal (.strayOrientation .fbClear) ∧
    decode [0x2001] = .illegal (.strayOrientation .showPanel) := by decide
theorem test_illegal_length : decode [0x1000] = .illegal (.wrongLength .fbClear 1) ∧
    decode [0x2000, 0] = .illegal (.wrongLength .showPanel 2) ∧
    decode [0x1200, 1] = .illegal (.wrongLength .fbReadPixel 2) := by decide
theorem test_illegal_opc : decode [0x0000] = .illegal (.unknownOpcode 0x00) ∧
    decode [0x0300] = .illegal (.unknownOpcode 0x03) ∧ decode [0x1400, 0, 0] = .illegal (.unknownOpcode 0x14) ∧
    decode [0x2300] = .illegal (.unknownOpcode 0x23) ∧ decode [0xFF00] = .illegal (.unknownOpcode 0xFF) := by decide

/-- The first word of the opcode table's SHOW_REGION row, its operand words zero. -/
theorem test_table_word : decodeTableWord 16 0x2100 = some (.showRegion 0 0 0 0) := by decide

/-- The assembly lines of P1 (R72), and CLEAR_SCREEN (R73). -/
theorem test_assemble : assemble ⟨.op .init, [.orient .portrait]⟩ = some [0x0100] ∧
    assemble ⟨.op .fbWritePixel, [.num 2, .num 1, .num 0xF800]⟩ = some [0x1100, 2, 1, 0xF800] ∧
    assemble ⟨.clearScreen, [.num 0]⟩ = some [0x1000, 0] ∧ assemble ⟨.op .fbClear, [.num 65536]⟩ = none := by decide

/-! ### Codes, bytes and addresses (V2 to V5) -/

theorem test_response_words : respWord .ok .uninit = 0x0000 ∧ respWord .ok .ready = 0x0100 ∧
    respWord .transportError .failed = 0x0201 ∧ respWord .outOfBounds .uninit = 0x0002 ∧
    respWord .invalidRegion .ready = 0x0103 ∧ respWord .illegalCommand .failed = 0x0204 := by decide
theorem test_command_encoder : issueEvents Config.ex (.columnRange 0x0123 0x01FF) =
      [.cmd 0x2A, .data 0x01, .data 0x23, .data 0x01, .data 0xFF] ∧
    issueEvents Config.ex (.rowRange 255 256) = [.cmd 0x2B, .data 0x00, .data 0xFF, .data 0x01, .data 0x00] ∧
    issueEvents Config.ex (.tuning ⟨0x21, []⟩) = [.cmd 0x21] := by decide
theorem test_unpack : unpack 0x1234 = [0x12, 0x34] ∧ pixelRed 0x1234 = 2 ∧ pixelGreen 0x1234 = 17 ∧
    pixelBlue 0x1234 = 20 := by decide
theorem test_fb_addr : fbAddr Config.ex 2 1 = some 10 ∧ fbAddr Config.ex 7 5 = some 47 ∧ fbAddr Config.ex 8 0 = none ∧
    fbAddr Config.ex 0 6 = none ∧ fbAddr Config.ex 0xFFFF 0 = none := by decide

/-! ### The operations, one step each -/

/-- W6 and V9, first row: the sixteen events of `GOLD(0)`. -/
theorem test_init_golden : seen (.init .portrait) (okState 12) = some ([0x0100],
    [⟨.rst 0, .ok⟩, ⟨.delay .rstHold, .ok⟩, ⟨.rst 1, .ok⟩, ⟨.delay .rstSettle, .ok⟩, ⟨.cmd 0x11, .ok⟩,
     ⟨.delay .wake, .ok⟩, ⟨.cmd 0x3A, .ok⟩, ⟨.data 0x55, .ok⟩, ⟨.cmd 0x36, .ok⟩, ⟨.data 0x00, .ok⟩,
     ⟨.cmd 0xB2, .ok⟩, ⟨.data 0x0C, .ok⟩, ⟨.data 0x0C, .ok⟩, ⟨.cmd 0x21, .ok⟩, ⟨.cmd 0x29, .ok⟩,
     ⟨.delay .dispon, .ok⟩]) := by decide
/-- V9, the row with `k` = 1: the line stays active. -/
theorem test_init_abort : seen (.init .portrait) (errState 0) = some ([0x0201], [⟨.rst 0, .err⟩]) ∧
    (after (exec (.init .portrait) (errState 0))).map (·.rstLine) = some 0 := by decide
/-- V9: SET_ORIENTATION LANDSCAPE. -/
theorem test_set_orientation : seen (.setOrientation .landscape) (okState 2) =
    some ([0x0000], [⟨.cmd 0x36, .ok⟩, ⟨.data 0x60, .ok⟩]) := by decide
/-- V1: an orientation that is not supported. -/
theorem test_set_orientation_unsupported :
    seen (.setOrientation .landscapeInverted) (State.resetOf twoOrient) = some ([0x0004], []) := by decide
set_option maxRecDepth 4000 in
/-- V8: FB_CLEAR 0xFFFF reaches the last word. -/
theorem test_fb_clear : seenWord (.fbClear 0xFFFF) State.reset 47 = some ([0x0000], some 0xFFFF) := by decide
/-- V8: FB_WRITE_PIXEL 7, 5. -/
theorem test_fb_write_pixel : seenWord (.fbWritePixel 7 5 0x00FF) State.reset 47 = some ([0x0000], some 0x00FF) := by decide
/-- V8: FB_WRITE_PIXEL 0, 6. -/
theorem test_fb_write_pixel_outside : seenWord (.fbWritePixel 0 6 0x00FF) State.reset 48 = some ([0x0002], none) := by decide
/-- W2: FB_READ_PIXEL 7, 5. -/
theorem test_fb_read_pixel : seen (.fbReadPixel 7 5) (fbState [(47, 0xABCD)]) = some ([0x0000, 0xABCD], []) := by decide
/-- V8: FB_READ_PIXEL 8, 0 has no RDATA. -/
theorem test_fb_read_pixel_outside : seen (.fbReadPixel 8 0) State.reset = some ([0x0002], []) := by decide
/-- V8, last row: a source of 3 by 2, its second column and on. -/
theorem test_fb_copy_region : (after (exec (.fbCopyRegion 1 0 3 2 0 0 3 2)
      { State.reset with src := [0xA, 0xB, 0xC, 0xD, 0xE, 0xF] })).map (·.fb) =
    some [(0, 0xB), (1, 0xC), (8, 0xE), (9, 0xF)] := by decide
/-- V8: sums are taken without wrap; inverted beats out of bounds. -/
theorem test_fb_copy_region_refused :
    seenWord (.fbCopyRegion 0 0 2 2 0xFFFF 0 2 2) State.reset 0 = some ([0x0002], none) ∧
    seenWord (.fbCopyRegion 2 0 0 9 0 0 2 2) State.reset 0 = some ([0x0003], none) := by decide
set_option maxRecDepth 4000 in
/-- V6 on a panel of two pixels: the window's inclusive ends and the words in order. -/
theorem test_show : seen .showPanel (tinyState 15) = some ([0x0000],
    [⟨.cmd 0x2A, .ok⟩, ⟨.data 0, .ok⟩, ⟨.data 0, .ok⟩, ⟨.data 0, .ok⟩, ⟨.data 1, .ok⟩,
     ⟨.cmd 0x2B, .ok⟩, ⟨.data 0, .ok⟩, ⟨.data 0, .ok⟩, ⟨.data 0, .ok⟩, ⟨.data 0, .ok⟩, ⟨.cmd 0x2C, .ok⟩,
     ⟨.data 0x12, .ok⟩, ⟨.data 0x34, .ok⟩, ⟨.data 0xF8, .ok⟩, ⟨.data 0x00, .ok⟩]) := by decide
/-- V6, EX-NARROW. -/
theorem test_show_narrow : seen .showPanel (State.resetOf narrow) = some ([0x0002], []) := by decide
set_option maxRecDepth 4000 in
/-- W4: SHOW_REGION 6, 4, 10, 9 is clamped to (6, 4, 8, 6). -/
theorem test_show_region_clamped :
    seen (.showRegion 6 4 10 9) { okState 19 with fb := [(38, 0x0102), (39, 0x0304), (46, 0x0506), (47, 0x0708)] } =
    some ([0x0000],
      [⟨.cmd 0x2A, .ok⟩, ⟨.data 0, .ok⟩, ⟨.data 6, .ok⟩, ⟨.data 0, .ok⟩, ⟨.data 7, .ok⟩,
       ⟨.cmd 0x2B, .ok⟩, ⟨.data 0, .ok⟩, ⟨.data 4, .ok⟩, ⟨.data 0, .ok⟩, ⟨.data 5, .ok⟩, ⟨.cmd 0x2C, .ok⟩,
       ⟨.data 1, .ok⟩, ⟨.data 2, .ok⟩, ⟨.data 3, .ok⟩, ⟨.data 4, .ok⟩,
       ⟨.data 5, .ok⟩, ⟨.data 6, .ok⟩, ⟨.data 7, .ok⟩, ⟨.data 8, .ok⟩]) := by decide
/-- W7, W8 and V6: zero area, inverted, outside. -/
theorem test_show_region_checks : seen (.showRegion 3 3 3 9) State.reset = some ([0x0000], []) ∧
    seen (.showRegion 4 2 2 5) State.reset = some ([0x0003], []) ∧
    seen (.showRegion 8 0 9 1) State.reset = some ([0x0002], []) := by decide
set_option maxRecDepth 4000 in
/-- V7: the row stride is the unclamped width. -/
theorem test_draw_image : (seen (.drawImage 6 0 10 2 16) { okState 19 with
      img := [1, 2, 3, 4, 5, 6, 7, 8, 9, 10, 11, 12, 13, 14, 15, 16] }).map (fun p => p.2.drop 11) =
    some [⟨.data 1, .ok⟩, ⟨.data 2, .ok⟩, ⟨.data 3, .ok⟩, ⟨.data 4, .ok⟩,
      ⟨.data 9, .ok⟩, ⟨.data 10, .ok⟩, ⟨.data 11, .ok⟩, ⟨.data 12, .ok⟩] := by decide
/-- V7: `floor(15/8) = 1` row is too few. -/
theorem test_draw_image_short : seen (.drawImage 0 0 4 2 15) State.reset = some ([0x0002], []) := by decide

/-- One step takes a packet; an illegal one has no effect (V1, P3 step 9). -/
theorem test_step_illegal : (after (step (State.reset.withFetchWord 16 0x2001))).map (fun t => (t.response, t.trace, t.fb)) =
    some ([0x0004], [], []) := by decide
/-- One step runs a table word's operation. -/
theorem test_step_table_word : (after (step (State.reset.withFetchWord 16 0x1100))).map (fun t => (t.response, t.fb)) =
    some ([0x0000], [(0, 0)]) := by decide

/-! ### Witnesses: a state and operands that meet the hypotheses of each obligation together -/

theorem witness_DecodedPacketIsTheEncoding : decode [0x2200, 0, 0, 1, 1, 1, 0] = .op (.drawImage 0 0 1 1 65536) := by decide
theorem witness_AddressDecoderIsABijection :
    fbAddr Config.ex 0 0 = some 0 ∧ fbAddr Config.ex 7 5 = some 47 ∧ 47 < Config.ex.nPix := by decide
theorem witness_StepRunsTheDecodedOperation :
    ({ State.reset with host := [.packet ⟨[0x0103], [], []⟩] } : State).host = .packet ⟨[0x0103], [], []⟩ :: [] ∧
    decode [0x0103] = .op (.init .landscapeInverted) := by decide
theorem witness_IllegalPacketHasNoEffect :
    ({ State.reset with host := [.packet ⟨[0xFF00], [], []⟩] } : State).host = .packet ⟨[0xFF00], [], []⟩ :: [] ∧
    decode [0xFF00] = .illegal (.unknownOpcode 0xFF) := by decide
theorem witness_StepWithoutInputWaits : State.reset.host = [] := by decide
theorem witness_StepTakesOneInput :
    ∃ t u, step { State.reset with host := [.packet ⟨[0x1200, 8, 0], [], []⟩] } = .next t ∧
      step { State.reset with host := [.blockReset] } = .next u := ⟨_, _, rfl, rfl⟩
theorem witness_BlockResetLeavesTheResetState : ({ State.reset with host := [.blockReset] } : State).host = .blockReset :: [] := by
  decide
theorem witness_InitRunsToReady : Orientation.portrait ∈ (okState 12).cfg.supported ∧
    AllOk (okState 12) (answerCount (initSequence (okState 12).cfg .portrait)) := by decide
theorem witness_InitEventCount : Orientation.landscape ∈ (okState 12).cfg.supported ∧
    AllOk (okState 12) (answerCount (initSequence (okState 12).cfg .landscape)) := by decide
theorem witness_InitAbortsToFailed_first : Orientation.portrait ∈ (errState 0).cfg.supported ∧
    0 < answerCount (initSequence (errState 0).cfg .portrait) ∧ FailsAt (errState 0) 0 := by decide
theorem witness_InitAbortsToFailed_last : Orientation.portrait ∈ (errState 11).cfg.supported ∧
    11 < answerCount (initSequence (errState 11).cfg .portrait) ∧ FailsAt (errState 11) 11 := by decide
theorem witness_InitRestartsFromTheTop : Orientation.portrait ∈ State.reset.cfg.supported := by decide
theorem witness_UnsupportedOrientationIsRefused : Orientation.landscape ∉ (State.resetOf twoOrient).cfg.supported := by decide
theorem witness_SetOrientationSendsTheCommand :
    Orientation.landscape ∈ (okState 2).cfg.supported ∧ AllOk (okState 2) 2 := by decide
theorem witness_SetOrientationTransportError_first :
    Orientation.landscape ∈ (errState 0).cfg.supported ∧ 0 < 2 ∧ FailsAt (errState 0) 0 := by decide
theorem witness_SetOrientationTransportError_second :
    Orientation.landscape ∈ (errState 1).cfg.supported ∧ 1 < 2 ∧ FailsAt (errState 1) 1 := by decide
theorem witness_FbClearIsIdempotent : fbWf (fbState [(3, 0x1234), (9, 0)]).fb = true := by decide
theorem witness_FbWritePixelWritesOneWord :
    (7 : Word).toNat < State.reset.cfg.fbW.toNat ∧ (5 : Word).toNat < State.reset.cfg.fbH.toNat := by decide
theorem witness_FbReadPixelReturnsTheWord :
    (0 : Word).toNat < State.reset.cfg.fbW.toNat ∧ (0 : Word).toNat < State.reset.cfg.fbH.toNat ∧
    fbLookup (fbState [(0, 0x1234)]).fb 0 = some 0x1234 ∧ fbLookup State.reset.fb 0 = none := by decide
theorem witness_OutOfBoundsPixelHasNoEffect :
    State.reset.cfg.fbW.toNat ≤ (8 : Word).toNat ∧ State.reset.cfg.fbH.toNat ≤ (6 : Word).toNat := by decide
theorem witness_WriteThenReadPacketsReturnTheColour :
    (7 : Word).toNat < State.reset.cfg.fbW.toNat ∧ (5 : Word).toNat < State.reset.cfg.fbH.toNat ∧
    ({ State.reset with host := [.packet ⟨encode (.fbWritePixel 7 5 0xABCD), [], []⟩,
      .packet ⟨encode (.fbReadPixel 7 5), [], []⟩] } : State).host =
      .packet ⟨encode (.fbWritePixel 7 5 0xABCD), [], []⟩ :: .packet ⟨encode (.fbReadPixel 7 5), [], []⟩ :: [] := by decide
/-- The hypothesis of `Obligations.CopyRegionChecksInOrder`. -/
abbrev CopyCheck (c : Config) (sx0 sy0 sx1 sy1 dx dy srcW srcH : Word) (st : Status) : Prop :=
  if sx1.toNat < sx0.toNat ∨ sy1.toNat < sy0.toNat then st = .invalidRegion
  else if sx0 = sx1 ∨ sy0 = sy1 then st = .ok
  else (srcW.toNat < sx1.toNat ∨ srcH.toNat < sy1.toNat ∨
      c.fbW.toNat < dx.toNat + (sx1.toNat - sx0.toNat) ∨ c.fbH.toNat < dy.toNat + (sy1.toNat - sy0.toNat)) ∧
    st = .outOfBounds

/-- One row for each clause of R125, most of them rows of V8: inverted, zero area, and the four extents. -/
theorem witness_CopyRegionChecksInOrder :
    CopyCheck Config.ex 2 0 0 9 0 0 2 2 .invalidRegion ∧ CopyCheck Config.ex 1 1 1 3 0 0 4 4 .ok ∧
    CopyCheck Config.ex 0 0 3 2 0 0 2 2 .outOfBounds ∧ CopyCheck Config.ex 0 0 2 3 0 0 2 2 .outOfBounds ∧
    CopyCheck Config.ex 0 0 2 2 7 4 2 2 .outOfBounds ∧ CopyCheck Config.ex 0 0 2 2 6 5 2 2 .outOfBounds := by decide
theorem witness_CopyRegionCopiesTheBlock :
    (0 : Word).toNat < (2 : Word).toNat ∧ (2 : Word).toNat ≤ (2 : Word).toNat ∧
    (6 : Word).toNat + ((2 : Word).toNat - (0 : Word).toNat) ≤ Config.ex.fbW.toNat ∧
    (4 : Word).toNat + ((2 : Word).toNat - (0 : Word).toNat) ≤ Config.ex.fbH.toNat ∧
    ({ State.reset with src := [1, 2, 3, 4] } : State).src.length = (2 : Word).toNat * (2 : Word).toNat := by decide
/-- The hypothesis of `Obligations.RegionChecksBeforeTheBuffer`. -/
abbrev RegionCheck (c : Config) (x0 y0 x1 y1 : Word) (st : Status) : Prop :=
  if x1.toNat < x0.toNat ∨ y1.toNat < y0.toNat then st = .invalidRegion
  else if x0 = x1 ∨ y0 = y1 then st = .ok
  else (c.panelW.toNat ≤ x0.toNat ∨ c.panelH.toNat ≤ y0.toNat) ∧ st = .outOfBounds

/-- Rows of V6: inverted in each coordinate, zero area (also outside the panel), outside by each coordinate. -/
theorem witness_RegionChecksBeforeTheBuffer :
    RegionCheck Config.ex 5 1 3 4 .invalidRegion ∧ RegionCheck Config.ex 3 4 3 1 .invalidRegion ∧
    RegionCheck Config.ex 10 10 10 20 .ok ∧ RegionCheck Config.ex 8 0 9 1 .outOfBounds ∧
    RegionCheck Config.ex 0 6 1 7 .outOfBounds := by decide
/-- SHOW_REGION 3, 0, 5, 1 under EX-NARROW (V6). -/
theorem witness_RegionBeyondItsBufferIsOutOfBounds_framebuffer :
    (3 : Word).toNat < (5 : Word).toNat ∧ (0 : Word).toNat < (1 : Word).toNat ∧ (3 : Word).toNat < narrow.panelW.toNat ∧
    (0 : Word).toNat < narrow.panelH.toNat ∧ narrow.fbW.toNat < min (5 : Word).toNat narrow.panelW.toNat := by decide
/-- DRAW_IMAGE 0, 0, 2, 2, 7 (V7). -/
theorem witness_RegionBeyondItsBufferIsOutOfBounds_image :
    (0 : Word).toNat < (2 : Word).toNat ∧ (0 : Word).toNat < Config.ex.panelW.toNat ∧
    (0 : Word).toNat < Config.ex.panelH.toNat ∧
    (7 : BitVec 32).toNat / (2 * ((2 : Word).toNat - (0 : Word).toNat)) <
      min (2 : Word).toNat Config.ex.panelH.toNat - (0 : Word).toNat := by decide
/-- SHOW_REGION 7, 5, 0xFFFF, 0xFFFF, clamped to the last pixel (V6). -/
theorem witness_ShowRegionStreamsTheClampedRegion :
    (7 : Word).toNat < (0xFFFF : Word).toNat ∧ (5 : Word).toNat < (0xFFFF : Word).toNat ∧
    (7 : Word).toNat < Config.ex.panelW.toNat ∧ (5 : Word).toNat < Config.ex.panelH.toNat ∧
    8 = min (0xFFFF : Word).toNat Config.ex.panelW.toNat ∧ 6 = min (0xFFFF : Word).toNat Config.ex.panelH.toNat ∧
    8 ≤ Config.ex.fbW.toNat ∧ 6 ≤ Config.ex.fbH.toNat ∧
    AllOk (okState 13) (11 + 2 * ((8 - (7 : Word).toNat) * (6 - (5 : Word).toNat))) := by decide
theorem witness_ShowStreamsThePanel : 1 ≤ tiny.panelW.toNat ∧ 1 ≤ tiny.panelH.toNat ∧ tiny.panelW.toNat ≤ tiny.fbW.toNat ∧
    tiny.panelH.toNat ≤ tiny.fbH.toNat ∧
    AllOk (tinyState 15) (11 + 2 * (tiny.panelW.toNat * tiny.panelH.toNat)) := by decide
theorem witness_ShowOfASmallFramebufferIsOutOfBounds :
    1 ≤ narrow.panelW.toNat ∧ 1 ≤ narrow.panelH.toNat ∧ narrow.fbW.toNat < narrow.panelW.toNat := by decide
/-- DRAW_IMAGE 6, 0, 10, 1, 8, clamped to (6, 0, 8, 1) (V7). -/
theorem witness_DrawImageStreamsTheImage :
    (6 : Word).toNat < (10 : Word).toNat ∧ (0 : Word).toNat < (1 : Word).toNat ∧
    (6 : Word).toNat < Config.ex.panelW.toNat ∧ (0 : Word).toNat < Config.ex.panelH.toNat ∧
    8 = min (10 : Word).toNat Config.ex.panelW.toNat ∧ 1 = min (1 : Word).toNat Config.ex.panelH.toNat ∧
    1 - (0 : Word).toNat ≤ (8 : BitVec 32).toNat / (2 * ((10 : Word).toNat - (6 : Word).toNat)) ∧
    ({ okState 15 with img := [1, 2, 3, 4, 5, 6, 7, 8] } : State).img.length = (8 : BitVec 32).toNat ∧
    AllOk { okState 15 with img := [1, 2, 3, 4, 5, 6, 7, 8] } (11 + 2 * ((8 - (6 : Word).toNat) * (1 - (0 : Word).toNat))) := by
  decide
/-- SHOW_REGION 0, 0, 1, 1 with its thirteenth event acknowledged ERR (V10). -/
theorem witness_ShowRegionTransportError :
    (0 : Word).toNat < (1 : Word).toNat ∧ (0 : Word).toNat < Config.ex.panelW.toNat ∧
    (0 : Word).toNat < Config.ex.panelH.toNat ∧ 1 = min (1 : Word).toNat Config.ex.panelW.toNat ∧
    1 = min (1 : Word).toNat Config.ex.panelH.toNat ∧ 1 ≤ Config.ex.fbW.toNat ∧ 1 ≤ Config.ex.fbH.toNat ∧
    12 < 11 + 2 * ((1 - (0 : Word).toNat) * (1 - (0 : Word).toNat)) ∧ FailsAt (errState 12) 12 := by decide

set_option maxRecDepth 4000 in
theorem witness_RegionEventCounts :
    (after (exec (.showRegion 0 0 1 1) (okState 13))).map (fun t => decide (t.response = [respWord .ok t.seq])) = some true ∧
    (after (exec (.drawImage 2 2 2 5 0) State.reset)).map (fun t => decide (t.response = [respWord .ok t.seq])) = some true := by
  decide
theorem witness_RegionOperationsWriteNothing :
    ∃ t u v, exec .showPanel (State.resetOf narrow) = .next t ∧ exec (.showRegion 0 0 0 0) State.reset = .next u ∧
      exec (.drawImage 8 0 9 1 2) State.reset = .next v := ⟨_, _, _, rfl, rfl, rfl⟩
set_option maxRecDepth 4000 in
/-- Two states that differ in `SEQ_STATE` and in the answers to come send the two-pixel framebuffer. -/
theorem witness_FlushDependsOnTheFramebufferAlone :
    (tinyState 15).cfg = ({ tinyState 20 with seq := .ready } : State).cfg ∧
    (tinyState 15).fb = ({ tinyState 20 with seq := .ready } : State).fb ∧
    (∀ a, a < (tinyState 15).cfg.nPix → (fbLookup (tinyState 15).fb a).isSome) ∧
    (after (exec (.showRegion 0 0 2 1) (tinyState 15))).map (fun t => decide (t.response = [respWord .ok t.seq])) = some true ∧
    (after (exec (.showRegion 0 0 2 1) { tinyState 20 with seq := .ready })).map
      (fun t => decide (t.response = [respWord .ok t.seq])) = some true := by decide

theorem witness_EveryOperationResponds : ∃ t u, exec (.fbReadPixel 3 3) State.reset = .next t ∧
    exec (.init .portrait) (okState 12) = .next u := ⟨_, _, rfl, rfl⟩
/-- One operation for each status other than OK. -/
theorem witness_EndingStatusLeaves :
    (after (exec (.fbReadPixel 8 0) State.reset)).map (fun t => decide (t.response.head? = some (respWord .outOfBounds t.seq))) = some true ∧
    (after (exec (.showRegion 4 2 2 5) State.reset)).map (fun t => decide (t.response.head? = some (respWord .invalidRegion t.seq))) = some true ∧
    (after (exec (.init .landscape) (State.resetOf twoOrient))).map (fun t => decide (t.response.head? = some (respWord .illegalCommand t.seq))) = some true ∧
    (after (exec (.init .portrait) (errState 2))).map (fun t => decide (t.response.head? = some (respWord .transportError t.seq))) = some true := by
  decide
theorem witness_ResetLineFollowsTheTrace : ∃ t u, exec (.init .portrait) (errState 0) = .next t ∧
    exec (.setOrientation .landscape) (okState 2) = .next u ∧ isInit (.setOrientation .landscape) = false :=
  ⟨_, _, rfl, rfl, rfl⟩
/-- An unsupported INIT and a SET_ORIENTATION for the first clause, a supported INIT for the second. -/
theorem witness_OnlyInitReadsOrWritesSeqState :
    (∀ o, Instr.init .landscape = .init o → o ∉ (State.resetOf twoOrient).cfg.supported) ∧
    (∃ t, exec (.init .landscape) (State.resetOf twoOrient) = .next t) ∧
    (∀ o, Instr.setOrientation .landscape = .init o → o ∉ (okState 2).cfg.supported) ∧
    (∃ t, exec (.setOrientation .landscape) (okState 2) = .next t) ∧
    Orientation.portrait ∈ State.reset.cfg.supported :=
  ⟨by rintro o ⟨⟩; decide, ⟨_, rfl⟩, by rintro o ⟨⟩, ⟨_, rfl⟩, by decide⟩
theorem witness_FramebufferOperationsEmitNothing : isFramebufferOp (.fbCopyRegion 0 0 1 1 0 0 0 0) = true := by decide
theorem witness_OnlyWritersChangeTheFramebuffer : writesFb (.fbReadPixel 3 3) = false ∧
    ∃ t, exec (.fbReadPixel 3 3) State.reset = .next t := ⟨rfl, _, rfl⟩
theorem witness_DelayEventsOnlyInInitAndAlwaysOk : ∃ t, exec (.init .portrait) (okState 12) = .next t := ⟨_, rfl⟩
theorem witness_EveryOperationCompletes : State.reset.answersLeft = none := by decide
theorem witness_OnlyASilentEnvironmentStops :
    Orientation.portrait ∈ ({ State.reset with answersLeft := some 0 } : State).cfg.supported ∧
    ({ State.reset with answersLeft := some 0 } : State).answersLeft = some 0 := by decide
theorem witness_StepKeepsTheInvariant : (fbState [(47, 0xABCD)]).Inv ∧ ∃ t, step (fbState [(47, 0xABCD)]) = .next t :=
  ⟨⟨by decide, by decide, by decide, by decide, by decide, by decide⟩, _, rfl⟩
theorem witness_StepKeepsTheConfiguration : ∃ t, step (State.reset.withFetchWord 16 0x1200) = .next t := ⟨_, rfl⟩
theorem witness_StepOnlyAppendsToTheTrace :
    (State.reset.withFetchWord 16 0x1200).host.head? ≠ some .blockReset ∧
    ∃ t, step (State.reset.withFetchWord 16 0x1200) = .next t := ⟨by decide, _, rfl⟩
theorem witness_DefinedWordsStayDefined :
    ((fbState [(47, 0xABCD)]).withFetchWord 16 0x1100).host.head? ≠ some .blockReset ∧
    (fbLookup ((fbState [(47, 0xABCD)]).withFetchWord 16 0x1100).fb 47).isSome ∧
    ∃ t, step ((fbState [(47, 0xABCD)]).withFetchWord 16 0x1100) = .next t := ⟨by decide, by decide, _, rfl⟩

end Sys2Proof.Tests
end

/-! SUPPORT. Two coarser readings of `exec_kind` (an operation runs on the bus, or it writes framebuffer words and answers),
and what they say of each field of the state: framebuffer, trace and line, `SEQ_STATE`. -/

namespace Sys2Proof.Machine

open Sys2Proof.Claims

/-- The three ways an operation answers a next state, by what it touches: framebuffer words alone (none unless it is a
writer), an INIT on the bus, or events that are no RST on the bus. -/
theorem exec_effect {i : Instr} {s t : State} (h : exec i s = .next t) :
    (∃ ws st rd, (writesFb i = false → ws = []) ∧ (∀ w ∈ ws, w.1 < s.cfg.nPix) ∧ t = (s.fbWriteAll ws).respond st rd) ∨
    (∃ o, i = .init o ∧ s.busOp (initActs s.cfg o) (fun t => t.setSeq .failed) = .next t) ∨
    (∃ es : List Event, (∀ e ∈ es, ∀ l, e ≠ .rst l) ∧ s.busOp (es.map .emit) (fun t => t) = .next t) := by
  cases exec_kind h with
  | reject st _ _ eq => exact .inl ⟨[], st, [], fun _ => rfl, by simp, eq⟩
  | nothing _ _ eq => exact .inl ⟨[], .ok, [], fun _ => rfl, by simp, eq⟩
  | read v _ _ eq => exact .inl ⟨[], .ok, [v], fun _ => rfl, by simp, eq⟩
  | write ws hw _ _ hin eq => exact .inl ⟨ws, .ok, [], fun hn => by simp [hn] at hw, hin, eq⟩
  | init o hi run => exact .inr (.inl ⟨o, hi, run⟩)
  | bus es _ _ hes _ run => exact .inr (.inr ⟨es, fun e he => (hes e he).2, run⟩)

/-- A bus operation ends with the framebuffer it began with, and with the trace and the line its actions left, when what it
does on ERR touches none of the three. -/
theorem busOp_keeps {s t : State} {acts : List BusAct} {onErr : State → State}
    (hon : ∀ u, (onErr u).fb = u.fb ∧ (onErr u).trace = u.trace ∧ (onErr u).rstLine = u.rstLine)
    (h : s.busOp acts onErr = .next t) :
    t.fb = s.fb ∧ t.trace = (runActs acts s).1.trace ∧ t.rstLine = (runActs acts s).1.rstLine := by
  have hfb : (runActs acts s).1.fb = s.fb := (runActs_frame acts s).2.1
  rcases busOp_next h with ⟨n, _, _, rfl⟩ | ⟨n, _, _, rfl⟩ <;> simp [hfb, hon]

/-- A bus operation that only emits leaves `SEQ_STATE` and `RST_LINE` alone. -/
theorem busOp_emits_keeps {s t : State} {es : List Event} (h : s.busOp (es.map .emit) (fun t => t) = .next t) :
    t.seq = s.seq ∧ t.rstLine = s.rstLine := by
  have he := runActs_emit_frame es s
  rcases busOp_next h with ⟨n, _, _, rfl⟩ | ⟨n, _, _, rfl⟩ <;> simpa using he

/-- What an operation does to the framebuffer: words written inside `N_PIX` by a writer, nothing by the others (R20). -/
theorem exec_fb {i : Instr} {s t : State} (h : exec i s = .next t) :
    ∃ ws, (writesFb i = false → ws = []) ∧ (∀ w ∈ ws, w.1 < s.cfg.nPix) ∧ t.fb = fbSetAll s.fb ws := by
  rcases exec_effect h with ⟨ws, st, rd, hw, hin, rfl⟩ | ⟨o, _, run⟩ | ⟨es, _, run⟩
  · exact ⟨ws, hw, hin, rfl⟩
  · exact ⟨[], fun _ => rfl, by simp, (busOp_keeps (by simp) run).1⟩
  · exact ⟨[], fun _ => rfl, by simp, (busOp_keeps (by simp) run).1⟩

/-- What an operation does to the trace and the line: it appends records, and the line follows them (R26, R32). -/
theorem exec_trace_line {i : Instr} {s t : State} (h : exec i s = .next t) :
    ∃ new, t.trace = s.trace ++ new ∧ t.rstLine = lineAfter s.rstLine new := by
  rcases exec_effect h with ⟨ws, st, rd, _, _, rfl⟩ | ⟨o, _, run⟩ | ⟨es, hes, run⟩
  · exact ⟨[], by simp, rfl⟩
  · obtain ⟨_, htrace, hline⟩ := busOp_keeps (by simp) run
    rw [htrace, hline]
    exact runActs_line (initActs_lineMatched s.cfg o)
  · obtain ⟨_, htrace, hline⟩ := busOp_keeps (by simp) run
    have hm : lineMatched (es.map .emit) = true := by simpa [lineMatched] using lineMatched_emits es hes []
    rw [htrace, hline]
    exact runActs_line hm

/-- The records of a whole INIT leave the line released (R102). -/
theorem lineAfter_acked_initSequence (c : Config) (o : Orientation) (l : BitVec 1) :
    lineAfter l (acked (initSequence c o)) = c.released := by
  obtain ⟨tl, heq, htl⟩ := initSequence_tail c o
  have hno : ∀ r ∈ acked tl, ∀ k, r.event ≠ .rst k := by
    intro r hr
    obtain ⟨e, he, rfl⟩ := List.mem_map.mp hr
    exact htl e he
  rw [heq]
  exact lineAfter_of_no_rst hno

/-- INIT's actions, run to their end, leave the line released (R102). -/
theorem runActs_initActs_line {s : State} {o : Orientation} (h : (runActs (initActs s.cfg o) s).2 = .ok) :
    (runActs (initActs s.cfg o) s).1.rstLine = s.cfg.released := by
  obtain ⟨new, htrace, hline⟩ := runActs_line (s := s) (initActs_lineMatched s.cfg o)
  have hnew : new = acked (initSequence s.cfg o) := by
    rw [runActs_trace_ok h, initActs_events] at htrace
    exact (List.append_cancel_left htrace).symm
  rw [hline, hnew, lineAfter_acked_initSequence]

/-- The two ends of an INIT that runs: READY with the line released (R108), or FAILED (R110). -/
theorem busOp_initActs_ends {s t : State} {o : Orientation}
    (h : s.busOp (initActs s.cfg o) (fun t => t.setSeq .failed) = .next t) :
    (t.seq = .ready ∧ t.rstLine = s.cfg.released) ∨ t.seq = .failed := by
  rcases busOp_next h with ⟨n, _, hok, rfl⟩ | ⟨n, _, _, rfl⟩
  · left
    simp [runActs_seq_ok hok, initActs_lastSeq, runActs_initActs_line hok]
  · right
    rfl

/-- What an operation does to `SEQ_STATE` and `RST_LINE`: nothing, or it is an INIT that came to one of its two ends. -/
theorem exec_seq_line {i : Instr} {s t : State} (h : exec i s = .next t) :
    (t.seq = s.seq ∧ t.rstLine = s.rstLine) ∨
    (isInit i = true ∧ ((t.seq = .ready ∧ t.rstLine = s.cfg.released) ∨ t.seq = .failed)) := by
  rcases exec_effect h with ⟨ws, st, rd, _, _, rfl⟩ | ⟨o, rfl, run⟩ | ⟨es, _, run⟩
  · exact .inl ⟨rfl, rfl⟩
  · exact .inr ⟨rfl, busOp_initActs_ends run⟩
  · exact .inl (busOp_emits_keeps run)

end Sys2Proof.Machine

/-! SUPPORT. The operations do not look at `SEQ_STATE` (R25): each shared operation run from another `SEQ_STATE` does the
same and reports the other one. -/

namespace Sys2Proof.Machine

/-- The state with another `SEQ_STATE` and another response: how the end of an operation differs between two runs whose
`SEQ_STATE` differs. -/
def State.reportAs (s : State) (q : SeqState) (resp : List Word) : State := { s with seq := q, response := resp }

/-- `t` is an end of an operation run from `s` that kept `SEQ_STATE`, and `out`, the outcome of the run from `SEQ_STATE` `q`,
is `t` again but for `q` and for `q` in the response. -/
def SameButSeq (q : SeqState) (s t : State) (out : Host.Outcome State Fault Refusal) : Prop :=
  t.seq = s.seq ∧ ∃ st rdata, t.response = respWord st s.seq :: rdata ∧ out = .next (t.reportAs q (respWord st q :: rdata))

/-- An operation that ends in a response alone reports the `SEQ_STATE` it was run from. -/
theorem sameButSeq_respond (q : SeqState) (s : State) (st : Status) (rd : List Word) :
    SameButSeq q s (s.respond st rd) (.next ((s.setSeq q).respond st rd)) := ⟨rfl, st, rd, rfl, rfl⟩

/-- The status a bus operation ends with, by the last acknowledgement (R181). -/
def endStatus : Ack → Status
  | .ok => .ok
  | .err => .transportError

/-- A bus operation that does nothing else on ERR ends in one response. -/
theorem busOp_id_eq (s : State) (acts : List BusAct) :
    s.busOp acts (fun t => t) = s.conclude ((runActs acts s).1.respond (endStatus (runActs acts s).2) []) := by
  unfold State.busOp
  rcases runActs acts s with ⟨t, _ | _⟩ <;> rfl

/-- Emitting events commutes with writing `SEQ_STATE`. -/
theorem runActs_emits_setSeq (es : List Event) (s : State) (q : SeqState) :
    runActs (es.map .emit) (s.setSeq q) =
      ((runActs (es.map .emit) s).1.setSeq q, (runActs (es.map .emit) s).2) := by
  induction es generalizing s with
  | nil => rfl
  | cons e es ih =>
    have hack : (s.setSeq q).ackFor e = s.ackFor e := rfl
    have hemit : (s.setSeq q).emit e = (s.emit e).setSeq q := rfl
    simp only [List.map_cons, runActs, hack, hemit]
    cases s.ackFor e with
    | ok => exact ih (s.emit e)
    | err => rfl

/-- Whether an operation concludes depends neither on `SEQ_STATE` nor on the response. -/
theorem conclude_reportAs {s t u : State} (q : SeqState) (resp : List Word) (h : s.conclude t = .next u) :
    (s.setSeq q).conclude (t.reportAs q resp) = .next (u.reportAs q resp) := by
  unfold State.conclude at h ⊢
  simp only [State.setSeq_answersLeft, State.setSeq_trace]
  split at h
  · cases h
    rfl
  · split at h
    · rename_i hk
      cases h
      exact if_pos hk
    · cases h

/-- A bus operation that only emits does not look at `SEQ_STATE`. -/
theorem sameButSeq_busOp {q : SeqState} {s t : State} {es : List Event}
    (h : s.busOp (es.map .emit) (fun t => t) = .next t) :
    SameButSeq q s t ((s.setSeq q).busOp (es.map .emit) (fun t => t)) := by
  have hseq : (runActs (es.map .emit) s).1.seq = s.seq := (runActs_emit_frame es s).1
  refine ⟨(busOp_emits_keeps h).1, endStatus (runActs (es.map .emit) s).2, [], ?_, ?_⟩
  · rw [busOp_id_eq] at h
    obtain ⟨n, rfl, _⟩ := conclude_next h
    simp [hseq]
  · rw [busOp_id_eq] at h ⊢
    rw [runActs_emits_setSeq]
    exact conclude_reportAs q _ h

/-- `RegionCore` does not look at `SEQ_STATE`. -/
theorem sameButSeq_regionCore {q : SeqState} {s t : State} {r : Region} {d : SourceDesc} (h : s.regionCore r d = .next t) :
    SameButSeq q s t ((s.setSeq q).regionCore r d) := by
  rcases regionCore_next h with ⟨st, htr, rfl⟩ | ⟨htr, rfl⟩ | ⟨w, htr, run⟩ <;>
    simp only [State.regionCore, State.setSeq_cfg, htr]
  · exact sameButSeq_respond q s st []
  · exact sameButSeq_respond q s .ok []
  · exact sameButSeq_busOp run

theorem exec_init_supported {s : State} {o : Orientation} (h : o ∈ s.cfg.supported) :
    exec (.init o) s = s.busOp (initActs s.cfg o) (fun t => t.setSeq .failed) := if_pos h

theorem exec_init_unsupported {s : State} {o : Orientation} (h : o ∉ s.cfg.supported) :
    exec (.init o) s = .next (s.respond .illegalCommand []) := if_neg h

theorem exec_setOrientation_supported {s : State} {o : Orientation} (h : o ∈ s.cfg.supported) :
    exec (.setOrientation o) s = s.busOp ((issueEvents s.cfg (.orientation o)).map .emit) (fun t => t) := if_pos h

theorem exec_setOrientation_unsupported {s : State} {o : Orientation} (h : o ∉ s.cfg.supported) :
    exec (.setOrientation o) s = .next (s.respond .illegalCommand []) := if_neg h

/-- No operation but a supported INIT looks at `SEQ_STATE` (R25). -/
theorem sameButSeq_exec {q : SeqState} {i : Instr} {s t : State} (hno : ∀ o, i = .init o → o ∉ s.cfg.supported)
    (h : exec i s = .next t) : SameButSeq q s t (exec i (s.setSeq q)) := by
  cases i with
  | init o =>
    have ho : o ∉ s.cfg.supported := hno o rfl
    rw [exec_init_unsupported ho] at h
    rw [exec_init_unsupported (s := s.setSeq q) ho]
    cases h
    exact sameButSeq_respond q s .illegalCommand []
  | setOrientation o =>
    by_cases ho : o ∈ s.cfg.supported
    · rw [exec_setOrientation_supported ho] at h
      rw [exec_setOrientation_supported (s := s.setSeq q) ho]
      exact sameButSeq_busOp h
    · rw [exec_setOrientation_unsupported ho] at h
      rw [exec_setOrientation_unsupported (s := s.setSeq q) ho]
      cases h
      exact sameButSeq_respond q s .illegalCommand []
  | fbClear color =>
    cases h
    exact sameButSeq_respond q (s.fbWriteAll _) .ok []
  | fbWritePixel x y color =>
    cases ha : fbAddr s.cfg x y with
    | none =>
      simp only [exec, execFbWritePixel, State.setSeq_cfg, ha] at h ⊢
      cases h
      exact sameButSeq_respond q s .outOfBounds []
    | some a =>
      simp only [exec, execFbWritePixel, State.setSeq_cfg, ha] at h ⊢
      cases h
      exact sameButSeq_respond q (s.fbWrite a color) .ok []
  | fbReadPixel x y =>
    cases ha : fbAddr s.cfg x y with
    | none =>
      simp only [exec, execFbReadPixel, State.setSeq_cfg, ha] at h ⊢
      cases h
      exact sameButSeq_respond q s .outOfBounds []
    | some a =>
      simp only [exec, execFbReadPixel, State.setSeq_cfg, ha] at h ⊢
      cases h
      exact sameButSeq_respond q s .ok [s.fbRead a]
  | fbCopyRegion sx0 sy0 sx1 sy1 dx dy srcW srcH =>
    simp only [exec, execFbCopyRegion] at h ⊢
    rw [State.setSeq_cfg]
    split_ifs at h ⊢ <;> cases h
    · exact sameButSeq_respond q s .invalidRegion []
    · exact sameButSeq_respond q s .ok []
    · exact sameButSeq_respond q s .outOfBounds []
    · exact sameButSeq_respond q s .outOfBounds []
    · exact sameButSeq_respond q (s.fbWriteAll _) .ok []
  | showPanel => exact sameButSeq_regionCore h
  | showRegion x0 y0 x1 y1 => exact sameButSeq_regionCore h
  | drawImage x0 y0 x1 y1 len => exact sameButSeq_regionCore h

/-- INIT's first action overwrites `SEQ_STATE`, and nothing before it looks at it (R102, R109). -/
theorem busOp_initActs_setSeq (s : State) (c : Config) (o : Orientation) (q : SeqState) (onErr : State → State) :
    (s.setSeq q).busOp (initActs c o) onErr = s.busOp (initActs c o) onErr := by
  have hrun : runActs (initActs c o) (s.setSeq q) = runActs (initActs c o) s := rfl
  have hconclude : ∀ t, (s.setSeq q).conclude t = s.conclude t := fun _ => rfl
  simp only [State.busOp, hrun, hconclude]

/-- A supported INIT answers the same from every `SEQ_STATE` (R25, R109). -/
theorem exec_init_setSeq {s : State} {o : Orientation} (q : SeqState) (ho : o ∈ s.cfg.supported) :
    exec (.init o) (s.setSeq q) = exec (.init o) s := by
  rw [exec_init_supported ho, exec_init_supported (s := s.setSeq q) ho, State.setSeq_cfg, busOp_initActs_setSeq]

/-- Settles O47: the first clause by `sameButSeq_exec` over the nine operations, the second because INIT's first action
overwrites `SEQ_STATE`. -/
theorem onlyInitReadsOrWritesSeqState : Obligations.OnlyInitReadsOrWritesSeqState :=
  ⟨fun _ _ _ _ hno h => sameButSeq_exec hno h, fun _ _ q ho => exec_init_setSeq q ho⟩

end Sys2Proof.Machine

/-! The statements on what every step keeps (R22, R29, R32, R33) and on what each operation may change (R20, R26). -/

namespace Sys2Proof.Machine

/-- The part of `State.Inv` that also holds while an operation runs: all but the side data being gone. -/
structure State.Sound (s : State) : Prop where
  canonical : fbWf s.fb = true
  inRange : s.fbInRange
  settled : seqSettled s.seq = true
  line : s.lineOk

theorem State.Inv.sound {s : State} (h : s.Inv) : s.Sound := ⟨h.canonical, h.inRange, h.settled, h.line⟩

theorem State.Sound.inv {s : State} (h : s.Sound) (hsrc : s.src = []) (himg : s.img = []) : s.Inv :=
  ⟨h.canonical, h.inRange, h.settled, h.line, hsrc, himg⟩

/-- Taking a packet changes only the side data and the host's inputs. -/
theorem State.Sound.accept {s : State} (h : s.Sound) (p : Packet) (later : List HostInput) : (s.accept p later).Sound :=
  ⟨h.canonical, h.inRange, h.settled, h.line⟩

/-- The reset state of any configuration meets the invariant (R33, R201). -/
theorem resetOf_inv (c : Config) : (State.resetOf c).Inv where
  canonical := resetOf_fb_wf c
  inRange := by simp [State.resetOf]
  settled := rfl
  line := fun h => absurd h (released_ne_active c)
  noSrc := rfl
  noImg := rfl

/-- A block reset meets the invariant, whatever state it is taken in: its fields are those of `resetOf_inv`. -/
theorem blockReset_inv (s : State) (later : List HostInput) : (s.blockReset later).Inv := by
  have h := resetOf_inv s.cfg
  exact ⟨h.canonical, h.inRange, h.settled, h.line, h.noSrc, h.noImg⟩

/-- Every operation run from a sound state ends in the invariant. -/
theorem exec_inv {i : Instr} {s t : State} (hs : s.Sound) (h : exec i s = .next t) : t.Inv := by
  obtain ⟨hcfg, _, hsrc, himg⟩ := exec_frame h
  obtain ⟨ws, _, hin, hfb⟩ := exec_fb h
  have hcanonical : fbWf t.fb = true := by rw [hfb]; exact fbSetAll_wf ws hs.canonical
  have hrange : t.fbInRange := by
    rw [State.fbInRange, hfb, hcfg]
    exact fbSetAll_inRange hs.inRange hin
  obtain ⟨hsettled, hlineOk⟩ : seqSettled t.seq = true ∧ t.lineOk := by
    rw [State.lineOk, hcfg]
    rcases exec_seq_line h with ⟨hseq, hline⟩ | ⟨_, ⟨hseq, hline⟩ | hseq⟩
    · rw [hseq, hline]
      exact ⟨hs.settled, hs.line⟩
    · rw [hseq, hline]
      exact ⟨rfl, fun ha => absurd ha (released_ne_active s.cfg)⟩
    · rw [hseq]
      exact ⟨rfl, fun _ => rfl⟩
  exact State.Sound.inv ⟨hcanonical, hrange, hsettled, hlineOk⟩ hsrc himg

/-- Settles O53, by the four things a step can do; an operation keeps the invariant by `exec_inv`. -/
theorem stepKeepsTheInvariant : Obligations.StepKeepsTheInvariant := by
  intro s t hs h
  rcases step_next h with ⟨_, rfl⟩ | ⟨l, _, rfl⟩ | ⟨p, l, i, _, _, hexec⟩ | ⟨p, l, why, _, _, rfl⟩
  · exact hs
  · exact blockReset_inv s l
  · exact exec_inv (hs.sound.accept p l) hexec
  · exact State.Sound.inv ⟨hs.canonical, hs.inRange, hs.settled, hs.line⟩ rfl rfl

/-- Settles O17, by `resetOf_inv`; `State.reset` is the reset state of the configuration EX. -/
theorem resetMeetsTheInvariant : Obligations.ResetMeetsTheInvariant := ⟨resetOf_inv, resetOf_inv Config.ex⟩

/-- Settles O46, by `exec_trace_line` for the last RST event and `exec_seq_line` for the operations other than INIT. -/
theorem resetLineFollowsTheTrace : Obligations.ResetLineFollowsTheTrace := by
  intro i s t h
  refine ⟨exec_trace_line h, fun hi => ?_⟩
  rcases exec_seq_line h with ⟨_, hline⟩ | ⟨hinit, _⟩
  · exact hline
  · simp [hi] at hinit

/-- Settles O49: by `exec_fb`, an operation that is no writer writes the empty list of words. -/
theorem onlyWritersChangeTheFramebuffer : Obligations.OnlyWritersChangeTheFramebuffer := by
  intro i s t hi h
  obtain ⟨ws, hws, _, hfb⟩ := exec_fb h
  rw [hfb, hws hi]
  rfl

/-- Settles O54, by the four things a step can do; an operation leaves the configuration by `exec_frame`. -/
theorem stepKeepsTheConfiguration : Obligations.StepKeepsTheConfiguration := by
  intro s t h
  rcases step_next h with ⟨_, rfl⟩ | ⟨l, _, rfl⟩ | ⟨p, l, i, _, _, hexec⟩ | ⟨p, l, why, _, _, rfl⟩
  · rfl
  · rfl
  · exact (exec_frame hexec).1
  · rfl

/-- A step that is no block reset only writes framebuffer words and appends records. -/
theorem step_fb_trace {s t : State} (hno : s.host.head? ≠ some .blockReset) (h : step s = .next t) :
    (∃ ws, t.fb = fbSetAll s.fb ws) ∧ ∃ new, t.trace = s.trace ++ new := by
  rcases step_next h with ⟨_, rfl⟩ | ⟨l, hhost, _⟩ | ⟨p, l, i, _, _, hexec⟩ | ⟨p, l, why, _, _, rfl⟩
  · exact ⟨⟨[], rfl⟩, [], by simp⟩
  · simp [hhost] at hno
  · obtain ⟨ws, _, _, hfb⟩ := exec_fb hexec
    obtain ⟨new, htrace, _⟩ := exec_trace_line hexec
    exact ⟨⟨ws, hfb⟩, new, htrace⟩
  · exact ⟨⟨[], rfl⟩, [], by simp⟩

/-- Settles O55, by `step_fb_trace`. -/
theorem stepOnlyAppendsToTheTrace : Obligations.StepOnlyAppendsToTheTrace :=
  fun _ _ hno h => (step_fb_trace hno h).2

/-- Settles O56: by `step_fb_trace` the framebuffer only takes writes, under which a defined word stays defined. -/
theorem definedWordsStayDefined : Obligations.DefinedWordsStayDefined := by
  intro s t a hno h hdef
  obtain ⟨⟨ws, hfb⟩, _⟩ := step_fb_trace hno h
  rw [hfb]
  exact fbLookup_fbSetAll_isSome hdef

end Sys2Proof.Machine

/-! The statements on memory: the framebuffer's address decoder (R43 to R45), and what a flush reads of the state (R53, R157). -/

namespace Sys2Proof.Machine

open Sys2Proof.Claims

/-! ### The address decoder and its inverse -/

/-- Settles O8: the decoder is R43's case split by definition. -/
theorem addressDecoder : Obligations.AddressDecoder := fun _ _ _ => rfl

/-- The coordinates of the address the decoder gives are the pixel's (R44). -/
theorem fbCoord_of_fbAddr {c : Config} {x y : Word} {a : Nat} (h : fbAddr c x y = some a) :
    fbCoord c a = (x.toNat, y.toNat) := by
  obtain ⟨hx, _, rfl⟩ := fbAddr_some h
  have hcol : (y.toNat * c.fbW.toNat + x.toNat) % c.fbW.toNat = x.toNat := Nat.mul_add_mod_of_lt hx
  have hrow : (y.toNat * c.fbW.toNat + x.toNat) / c.fbW.toNat = y.toNat :=
    Nat.div_eq_of_lt_le (by omega) (by rw [Nat.succ_mul]; omega)
  rw [fbCoord, hcol, hrow]

/-- Two pixels with one address have that address's coordinates, so they are one pixel (R45). -/
theorem fbAddr_inj {c : Config} {x y x' y' : Word} {a : Nat} (h : fbAddr c x y = some a) (h' : fbAddr c x' y' = some a) :
    x = x' ∧ y = y' := by
  have hcoord : (x.toNat, y.toNat) = (x'.toNat, y'.toNat) := by rw [← fbCoord_of_fbAddr h, fbCoord_of_fbAddr h']
  obtain ⟨hx, hy⟩ := Prod.mk.inj hcoord
  exact ⟨BitVec.eq_of_toNat_eq hx, BitVec.eq_of_toNat_eq hy⟩

/-- The coordinates of a word address are inside the framebuffer (R44). -/
theorem fbCoord_lt {c : Config} {a : Nat} (h : a < c.nPix) :
    (fbCoord c a).1 < c.fbW.toNat ∧ (fbCoord c a).2 < c.fbH.toNat :=
  ⟨Nat.mod_lt _ (Nat.pos_of_mul_pos_right (Nat.zero_lt_of_lt h)), Nat.div_lt_of_lt_mul h⟩

/-- Every word address is the address of the pixel at its coordinates (R45). -/
theorem fbAddr_fbCoord {c : Config} {a : Nat} (h : a < c.nPix) :
    fbAddr c (BitVec.ofNat 16 (fbCoord c a).1) (BitVec.ofNat 16 (fbCoord c a).2) = some a := by
  obtain ⟨hx, hy⟩ := fbCoord_lt h
  have toNat_of_lt : ∀ (n : Nat) (b : Word), n < b.toNat → (BitVec.ofNat 16 n).toNat = n :=
    fun n b hn => by rw [BitVec.toNat_ofNat, Nat.mod_eq_of_lt (hn.trans b.isLt)]
  have hxn := toNat_of_lt _ _ hx
  have hyn := toNat_of_lt _ _ hy
  rw [fbAddr_of_lt (by rwa [hxn]) (by rwa [hyn]), hxn, hyn]
  exact congrArg some (Nat.div_add_mod' a c.fbW.toNat)

/-- Settles O9: the coordinates of R44 invert the decoder on either side. -/
theorem addressDecoderIsABijection : Obligations.AddressDecoderIsABijection := fun _ =>
  ⟨fun _ _ _ h => ⟨fbAddr_lt_nPix h, fbCoord_of_fbAddr h⟩, fun _ _ _ _ _ h h' => fbAddr_inj h h',
    fun _ h => ⟨_, _, fbAddr_fbCoord h⟩⟩

/-! ### What an acknowledged flush sends -/

/-- The events of a region operation that ends OK: those of the clamped window, none for a region of zero area. -/
def State.sentEvents (s : State) (r : Region) (d : SourceDesc) : List Event :=
  match translateRegion s.cfg r d with
  | .window w => s.regionEvents d w
  | .nothing => []
  | .rejected _ => []

theorem sentEvents_window {s : State} {r : Region} {d : SourceDesc} {w : Window}
    (h : translateRegion s.cfg r d = .window w) : s.sentEvents r d = s.regionEvents d w := by
  simp only [State.sentEvents, h]

theorem sentEvents_nothing {s : State} {r : Region} {d : SourceDesc} (h : translateRegion s.cfg r d = .nothing) :
    s.sentEvents r d = [] := by
  simp only [State.sentEvents, h]

/-- A bus operation that ends with status OK appends all of its events, each acknowledged OK. -/
theorem busOp_ok_trace {s t : State} {acts : List BusAct} (h : s.busOp acts (fun t => t) = .next t)
    (hok : t.response = [respWord .ok t.seq]) : t.trace = s.trace ++ acked (actEvents acts) := by
  rcases busOp_next h with ⟨n, _, hrun, rfl⟩ | ⟨n, _, _, rfl⟩
  · exact runActs_trace_ok hrun
  · exact absurd (respWord_inj (List.head_eq_of_cons_eq hok)).1 (by decide)

/-- A region operation that ends with status OK appends the events of its region, each acknowledged OK (R152). -/
theorem regionCore_ok_trace {s t : State} {r : Region} {d : SourceDesc} (h : s.regionCore r d = .next t)
    (hok : t.response = [respWord .ok t.seq]) : t.trace = s.trace ++ acked (s.sentEvents r d) := by
  rcases regionCore_next h with ⟨st, htr, rfl⟩ | ⟨htr, rfl⟩ | ⟨w, htr, run⟩
  · have hst : st = .ok := (respWord_inj (List.head_eq_of_cons_eq hok)).1
    rcases translateRegion_rejected htr with rfl | rfl <;> cases hst
  · simp [sentEvents_nothing htr, acked]
  · rw [sentEvents_window htr, ← actEvents_map_emit (s.regionEvents d w)]
    exact busOp_ok_trace run hok

/-- A defined word reads the same in two states with one framebuffer: no free value is drawn (R22). -/
theorem fbRead_congr {s s' : State} {a : Nat} (hfb : s.fb = s'.fb) (hdef : (fbLookup s.fb a).isSome) :
    s.fbRead a = s'.fbRead a := by
  obtain ⟨v, hv⟩ := Option.isSome_iff_exists.mp hdef
  rw [State.fbRead, State.fbRead, ← hfb, hv]
  rfl

/-- The events of a window sent from the framebuffer are fixed by the configuration and the framebuffer when the words
of the window are defined (R53). -/
theorem regionEvents_fb_congr {s s' : State} {w : Window} (hcfg : s.cfg = s'.cfg) (hfb : s.fb = s'.fb)
    (hdef : ∀ p ∈ windowWalk w, (fbLookup s.fb (pixelIndex (sourceFb s.cfg) p)).isSome) :
    s.regionEvents (sourceFb s.cfg) w = s'.regionEvents (sourceFb s.cfg) w := by
  have hpixels : s.pixelEvents (sourceFb s.cfg) w = s'.pixelEvents (sourceFb s.cfg) w :=
    List.flatMap_congr fun p hp =>
      congrArg (fun v => (unpack v).map Event.data) (fbRead_congr hfb (hdef p hp))
  rw [State.regionEvents, State.regionEvents, hpixels, hcfg]

/-- A window that passed the checks reads framebuffer words alone (R145). -/
theorem pixelIndex_fb_lt_nPix {c : Config} {r : Region} {w : Window} {p : Nat × Nat}
    (h : translateRegion c r (sourceFb c) = .window w) (hp : p ∈ windowWalk w) : pixelIndex (sourceFb c) p < c.nPix := by
  obtain ⟨_, _, _, _, _, _, _, hcols, hrows⟩ := translateRegion_window h
  obtain ⟨hx0, hx, hy0, hy⟩ := mem_windowWalk.mp hp
  simp only [sourceFb] at hcols hrows
  exact rowMajor_lt (by simp only [sourceFb]; omega) (by simp only [sourceFb]; omega)

/-- What a flush sends is fixed by the configuration and a framebuffer without undefined words. -/
theorem sentEvents_fb_congr {s s' : State} {r : Region} (hcfg : s.cfg = s'.cfg) (hfb : s.fb = s'.fb)
    (hdef : ∀ a, a < s.cfg.nPix → (fbLookup s.fb a).isSome) :
    s.sentEvents r (sourceFb s.cfg) = s'.sentEvents r (sourceFb s.cfg) := by
  unfold State.sentEvents
  rw [← hcfg]
  cases htr : translateRegion s.cfg r (sourceFb s.cfg) with
  | window w => exact regionEvents_fb_congr hcfg hfb fun p hp => hdef _ (pixelIndex_fb_lt_nPix htr hp)
  | nothing => rfl
  | rejected st => rfl

/-- Settles O43: by `regionCore_ok_trace` either run appends its sent events, which `sentEvents_fb_congr` says are the
same. -/
theorem flushDependsOnTheFramebufferAlone : Obligations.FlushDependsOnTheFramebufferAlone := by
  intro s s' t t' x0 y0 x1 y1 hcfg hfb hdef h h' hok hok'
  have htrace : t.trace = s.trace ++ acked (s.sentEvents ⟨x0, y0, x1, y1⟩ (sourceFb s.cfg)) := regionCore_ok_trace h hok
  have htrace' : t'.trace = s'.trace ++ acked (s'.sentEvents ⟨x0, y0, x1, y1⟩ (sourceFb s'.cfg)) :=
    regionCore_ok_trace h' hok'
  rw [← hcfg, ← sentEvents_fb_congr hcfg hfb hdef] at htrace'
  exact ⟨_, htrace, htrace'⟩

end Sys2Proof.Machine

/-! The statements on the encoding: decoder and encoder are inverse to each other (R61 to R63, R69), the illegal packets
(R64, R67) and the assembler (R72, R73). -/

namespace Sys2Proof

open Sys2Proof.Claims

/-! ### The encoder's packet decodes to its operation -/

/-- A packet has the length the opcode map gives its operation (R63). -/
theorem operandWords_length (i : Instr) : (operandWords i).length + 1 = packetLength (opcodeOfInstr i) := by
  cases i <;> rfl

/-- A header's `ORI` is not 0 only where the operation carries an orientation (R61). -/
theorem carriesOrientation_of_oriField {i : Instr} (h : oriField i ≠ 0) : carriesOrientation (opcodeOfInstr i) = true := by
  cases i with
  | init o => rfl
  | setOrientation o => rfl
  | _ => exact absurd rfl h

/-- The decoder reads an operation's operands back from its operand words: an orientation from its code, an image length
from its two halves, and every other operand as it stands (R62, R65). -/
theorem decodeOperands_operandWords (i : Instr) :
    decodeOperands (opcodeOfInstr i) (orientationOf (oriField i)) (operandWords i) = i := by
  cases i with
  | init o => exact congrArg Instr.init (orientationOf_code o)
  | setOrientation o => exact congrArg Instr.setOrientation (orientationOf_code o)
  | drawImage x0 y0 x1 y1 len => exact congrArg (Instr.drawImage x0 y0 x1 y1) (imageLength_halves len)
  | _ => rfl

theorem decode_encode (i : Instr) : decode (encode i) = .op i := by
  rw [encode, decode_of_good_header (operandWords_length i) carriesOrientation_of_oriField, decodeOperands_operandWords]

/-- Settles O1: the encoder's header passes every check of R69, and the operands are read back. -/
theorem decodeOfEncode : Obligations.DecodeOfEncode := decode_encode

/-- Settles O4: each of the nine packets is the encoding of its operation. -/
theorem wordsOfTheOpcodeMapDecode : Obligations.WordsOfTheOpcodeMapDecode :=
  ⟨decode_encode (.init .landscapeInverted), decode_encode (.setOrientation .portraitInverted),
    decode_encode (.fbClear 0xF800), decode_encode (.fbWritePixel 2 1 0xF800), decode_encode (.fbReadPixel 2 1),
    decode_encode (.fbCopyRegion 1 2 3 4 5 6 7 8), decode_encode .showPanel, decode_encode (.showRegion 6 4 10 9),
    decode_encode (.drawImage 0 0 1 1 65536)⟩

/-! ### A packet that decodes is its operation's encoding -/

/-- The `ORI` of a header that passed the last check of R69 is that of the operation read. -/
theorem oriField_of_checked {m : Opcode} {ori : BitVec 2} (ops : List Word) (h : ori ≠ 0 → carriesOrientation m = true) :
    oriField (decodeOperands m (orientationOf ori) ops) = ori := by
  rw [oriField_decodeOperands, orientationCode_of]
  split
  · rfl
  · rename_i hc
    exact (not_not.mp (mt h hc)).symm

/-- Settles O2: each check of R69 fixes one part of the packet: the header's three fields and its operand words. -/
theorem decodedPacketIsTheEncoding : Obligations.DecodedPacketIsTheEncoding := by
  intro ws i hdec
  obtain ⟨h, ops, m, rfl, hopc, hlen, hrsv, hori, rfl⟩ := decode_op hdec
  rw [encode, opcodeOfInstr_decodeOperands, oriField_of_checked ops hori, operandWords_decodeOperands hlen,
    opcodeByte_of hopc, headerWord_of_fields hrsv]

/-! ### The illegal packets -/

/-- The lengths by `OPC` number are those of the opcode map (R63). -/
theorem lengthOfOpc_toNat (b : Byte) : lengthOfOpc b.toNat = (opcodeOf b).map packetLength := by
  revert b
  decide

/-- The operations without an orientation, by `OPC` number (R61). -/
theorem carriesOrientation_eq_false_iff {b : Byte} {m : Opcode} (h : opcodeOf b = some m) :
    carriesOrientation m = false ↔ b.toNat ≠ 0x01 ∧ b.toNat ≠ 0x02 := by
  rw [← opcodeByte_of h]
  cases m <;> decide

/-- The three checks on a packet whose `OPC` is in the map (R64, R67). -/
theorem decode_illegal_iff {h : Word} {ops : List Word} {m : Opcode} (hm : opcodeOf (headerOpc h) = some m) :
    (∃ why, decode (h :: ops) = .illegal why) ↔
      ops.length + 1 ≠ packetLength m ∨ headerRsv h ≠ 0 ∨ (headerOri h ≠ 0 ∧ carriesOrientation m = false) := by
  simp only [decode, hm]
  split_ifs with hlen hrsv hori
  · exact iff_of_true ⟨_, rfl⟩ (.inl hlen)
  · exact iff_of_true ⟨_, rfl⟩ (.inr (.inl hrsv))
  · exact iff_of_true ⟨_, rfl⟩ (.inr (.inr hori))
  · exact iff_of_false (by simp) (not_or.mpr ⟨hlen, not_or.mpr ⟨hrsv, hori⟩⟩)

/-- Settles O3, by whether the opcode map has the `OPC`; the checks of the decoder are then read as numbers. -/
theorem illegalPacketsAreTheListedOnes : Obligations.IllegalPacketsAreTheListedOnes := by
  intro h ops
  rw [← headerOpc_toNat, ← headerRsv_toNat, ← headerOri_toNat, lengthOfOpc_toNat]
  cases hm : opcodeOf (headerOpc h) with
  | none => simp [decode, hm]
  | some m =>
    rw [decode_illegal_iff hm, carriesOrientation_eq_false_iff hm]
    simp only [Option.map_some, ne_eq, Option.some.injEq, ← BitVec.toNat_inj]
    tauto

/-! ### The assembler -/

/-- A u16 is in the range of its field (R72). -/
@[simp] theorem asmWord_toNat (w : Word) : asmWord w.toNat = some w := by
  rw [asmWord, if_pos w.isLt, BitVec.ofNat_toNat, BitVec.setWidth_eq]

@[simp] theorem asmLength_toNat (len : BitVec 32) : asmLength len.toNat = some len := by
  rw [asmLength, if_pos len.isLt, BitVec.ofNat_toNat, BitVec.setWidth_eq]

@[simp] theorem asmWords_nil : asmWords [] = some [] := rfl

@[simp] theorem asmWords_num_toNat (w : Word) (rest : List AsmOperand) :
    asmWords (.num w.toNat :: rest) = (asmWords rest).map (w :: ·) := by
  rw [asmWords, asmWord_toNat]
  cases asmWords rest <;> rfl

/-- The line of an operation names that operation. -/
theorem asmInstr_asmLine (i : Instr) : asmInstr (asmLine i) = some i := by
  cases i with
  | init o => rfl
  | setOrientation o => rfl
  | showPanel => rfl
  | _ => simp [asmLine, asmInstr]

/-- FB_CLEAR's packet: its header word, then the colour (R61, R63). -/
theorem encode_fbClear (c : Word) : encode (.fbClear c) = [0x1000, c] := by
  have hheader : headerWord 0x10 0 = 0x1000 := by decide
  exact congrArg (· :: [c]) hheader

/-- Settles O5, by `asmInstr_asmLine`; CLEAR_SCREEN names FB_CLEAR (R73). -/
theorem assemblerGivesThePacket : Obligations.AssemblerGivesThePacket := by
  refine ⟨fun i => ?_, fun c => ?_⟩
  · rw [assemble, asmInstr_asmLine, Option.map_some]
  · have hclear : asmInstr ⟨.clearScreen, [.num c.toNat]⟩ = some (.fbClear c) := by simp [asmInstr]
    rw [assemble, hclear, Option.map_some, encode_fbClear]

end Sys2Proof

/-! The statements on a step's input (R60, R68, R209) and on an operation's response and DELAY events (R70, R77, R78, R180). -/

namespace Sys2Proof.Machine

open Sys2Proof.Claims

/-! ### The response word -/

/-- The four fields of a word of four nibbles (R70). -/
theorem extractLsb'_nibbles (a b c d : BitVec 4) :
    (a ++ (b ++ (c ++ d)) : Word).extractLsb' 0 4 = d ∧ (a ++ (b ++ (c ++ d)) : Word).extractLsb' 4 4 = c ∧
    (a ++ (b ++ (c ++ d)) : Word).extractLsb' 8 4 = b ∧ (a ++ (b ++ (c ++ d)) : Word).extractLsb' 12 4 = a := by
  have hlow : ∀ k, k + 4 ≤ 12 →
      (a ++ (b ++ (c ++ d)) : Word).extractLsb' k 4 = (b ++ (c ++ d) : BitVec 12).extractLsb' k 4 :=
    fun k hk => BitVec.extractLsb'_append_eq_of_add_le hk
  have hlow' : ∀ k, k + 4 ≤ 8 →
      (b ++ (c ++ d) : BitVec 12).extractLsb' k 4 = (c ++ d : BitVec 8).extractLsb' k 4 :=
    fun k hk => BitVec.extractLsb'_append_eq_of_add_le hk
  refine ⟨?_, ?_, ?_, BitVec.extractLsb'_append_eq_left⟩
  · rw [hlow 0 (by decide), hlow' 0 (by decide)]
    exact BitVec.extractLsb'_append_eq_right
  · rw [hlow 4 (by decide), hlow' 4 (by decide)]
    exact BitVec.extractLsb'_append_eq_left
  · rw [hlow 8 (by decide)]
    exact BitVec.extractLsb'_append_eq_left

/-- Settles O6: the response word is four nibbles, and the codes are R180's and R24's by definition. -/
theorem responseWordLayout : Obligations.ResponseWordLayout := by
  intro st q
  obtain ⟨hstatus, hlow, hseq, hhigh⟩ := extractLsb'_nibbles 0#4 (seqCode q) 0#4 (statusCode st)
  exact ⟨hstatus, hlow, hseq, hhigh, rfl, rfl, rfl, rfl, rfl, rfl, rfl, rfl⟩

/-! ### A step with a packet first among the inputs -/

theorem step_of_op {s : State} {p : Packet} {later : List HostInput} {i : Instr} (hhost : s.host = .packet p :: later)
    (hdec : decode p.words = .op i) : step s = exec i (s.accept p later) := by
  simp only [step, hhost, hdec]

theorem step_of_illegal {s : State} {p : Packet} {later : List HostInput} {why : Reject}
    (hhost : s.host = .packet p :: later) (hdec : decode p.words = .illegal why) :
    step s = .next ((s.accept p later).respond .illegalCommand []) := by
  simp only [step, hhost, hdec, State.refusePacket_eq]

/-- Settles O11, by `step_of_op`. -/
theorem stepRunsTheDecodedOperation : Obligations.StepRunsTheDecodedOperation :=
  fun _ _ _ _ hhost hdec => step_of_op hhost hdec

/-- Settles O12: by `step_of_illegal` the step only takes the packet and responds. -/
theorem illegalPacketHasNoEffect : Obligations.IllegalPacketHasNoEffect := by
  intro s p later why hhost hdec
  exact ⟨_, step_of_illegal hhost hdec, rfl, ⟨rfl, rfl, rfl, rfl, rfl, rfl, rfl, rfl, rfl⟩, rfl⟩

/-- Settles O14, by the four things a step can do; an operation leaves the host's inputs by `exec_frame`. -/
theorem stepTakesOneInput : Obligations.StepTakesOneInput := by
  intro s t x later hhost h
  rcases step_next h with ⟨hnil, _⟩ | ⟨l, hl, rfl⟩ | ⟨p, l, i, hl, _, hexec⟩ | ⟨p, l, why, hl, _, rfl⟩
  · simp [hnil] at hhost
  · exact List.tail_eq_of_cons_eq (hl.symm.trans hhost)
  · obtain ⟨_, hkept, _, _⟩ := exec_frame hexec
    exact hkept.trans (List.tail_eq_of_cons_eq (hl.symm.trans hhost))
  · exact List.tail_eq_of_cons_eq (hl.symm.trans hhost)

/-! ### The response of an operation -/

/-- A bus operation responds OK or TransportError, without RDATA (R181). -/
theorem busOp_response {s t : State} {acts : List BusAct} {onErr : State → State} (h : s.busOp acts onErr = .next t) :
    ∃ st, (st = .ok ∨ st = .transportError) ∧ t.response = [respWord st t.seq] := by
  rcases busOp_next h with ⟨n, _, _, rfl⟩ | ⟨n, _, _, rfl⟩
  · exact ⟨.ok, .inl rfl, rfl⟩
  · exact ⟨.transportError, .inr rfl, rfl⟩

theorem isReadPixel_of_not_framebufferOp {i : Instr} (h : isFramebufferOp i = false) : isReadPixel i = false := by
  cases i with
  | fbReadPixel x y => cases h
  | _ => rfl

/-- Settles O44, by the ways an operation ends; only FB_READ_PIXEL with a value gives RDATA. -/
theorem everyOperationResponds : Obligations.EveryOperationResponds := by
  intro i s t h
  have hplain : ∀ st, t.response = [respWord st t.seq] → st ∈ allowedStatuses i →
      ¬(isReadPixel i = true ∧ st = .ok) → ∃ st rdata, t.response = respWord st t.seq :: rdata ∧
        st ∈ allowedStatuses i ∧ rdata.length = if isReadPixel i = true ∧ st = .ok then 1 else 0 :=
    fun st hresp hst hno => ⟨st, [], hresp, hst, (if_neg hno).symm⟩
  cases exec_kind h with
  | reject st hst hs eq =>
    subst eq
    refine hplain st rfl hs ?_
    rintro ⟨_, rfl⟩
    simp at hst
  | nothing hr hs eq =>
    subst eq
    exact hplain .ok rfl hs (by simp [hr])
  | read v hr hs eq =>
    subst eq
    exact ⟨.ok, [v], rfl, hs, by simp [hr]⟩
  | write ws hw hr hs hin eq =>
    subst eq
    exact hplain .ok rfl hs (by simp [hr])
  | init o hi run =>
    subst hi
    obtain ⟨st, hst, hresp⟩ := busOp_response run
    exact hplain st hresp (by rcases hst with rfl | rfl <;> simp [allowedStatuses]) (by simp [isReadPixel])
  | bus es hi hf hes hs run =>
    obtain ⟨st, hst, hresp⟩ := busOp_response run
    refine hplain st hresp ?_ (by simp [isReadPixel_of_not_framebufferOp hf])
    rcases hst with rfl | rfl
    · exact hs.1
    · exact hs.2

/-! ### The DELAY events of an operation -/

/-- What a bus operation appends to the trace: records of its actions' events, a DELAY among them acknowledged OK. -/
theorem busOp_new {s t : State} {acts : List BusAct} {onErr : State → State}
    (hon : ∀ u, (onErr u).fb = u.fb ∧ (onErr u).trace = u.trace ∧ (onErr u).rstLine = u.rstLine)
    (h : s.busOp acts onErr = .next t) :
    ∃ new, t.trace = s.trace ++ new ∧ (∀ r ∈ new, r.event ∈ actEvents acts) ∧
      ∀ r ∈ new, isDelay r.event = true → r.ack = .ok := by
  obtain ⟨_, htrace, _⟩ := busOp_keeps hon h
  rw [htrace]
  exact runActs_new acts s

/-- Settles O50: INIT's DELAY events are acknowledged OK by `busOp_new`, and no other operation has a DELAY among its
events. -/
theorem delayEventsOnlyInInitAndAlwaysOk : Obligations.DelayEventsOnlyInInitAndAlwaysOk := by
  intro i s t h
  have hquiet : t.trace = s.trace → ∃ new, t.trace = s.trace ++ new ∧
      ∀ r ∈ new, isDelay r.event = true → isInit i = true ∧ r.ack = .ok :=
    fun htrace => ⟨[], by simpa using htrace, by simp⟩
  cases exec_kind h with
  | reject st hst hs eq => exact hquiet (by rw [eq]; rfl)
  | nothing hr hs eq => exact hquiet (by rw [eq]; rfl)
  | read v hr hs eq => exact hquiet (by rw [eq]; rfl)
  | write ws hw hr hs hin eq => exact hquiet (by rw [eq]; rfl)
  | init o hi run =>
    subst hi
    obtain ⟨new, htrace, _, hack⟩ := busOp_new (by simp) run
    exact ⟨new, htrace, fun r hr hd => ⟨rfl, hack r hr hd⟩⟩
  | bus es hi hf hes hs run =>
    obtain ⟨new, htrace, hmem, _⟩ := busOp_new (by simp) run
    rw [actEvents_map_emit] at hmem
    refine ⟨new, htrace, fun r hr hd => ?_⟩
    obtain ⟨hnot, _⟩ := hes r.event (hmem r hr)
    simp [hnot] at hd

end Sys2Proof.Machine

/-! The statement on the command encoder's catalog (R90 to R99). -/

namespace Sys2Proof.Machine

open Sys2Proof.Claims

/-- A pair of coordinates is sent as its two words, each most significant byte first (R95, R96). -/
theorem map_data_coordBytes (a b : Word) : (coordBytes a b).map Event.data = bigEndian a.toNat ++ bigEndian b.toNat := by
  have hsplit : coordBytes a b = unpack a ++ unpack b := rfl
  rw [hsplit, List.map_append, map_data_unpack, map_data_unpack]

/-- Settles O10: the two coordinate entries by `map_data_coordBytes`, the others by the catalog's definition (R91). -/
theorem commandEncoderCatalog : Obligations.CommandEncoderCatalog := by
  intro c
  have hcolumn : ∀ xs xe : Word, issueEvents c (.columnRange xs xe) =
      .cmd c.opCaset :: (bigEndian xs.toNat ++ bigEndian xe.toNat) :=
    fun xs xe => congrArg (Event.cmd c.opCaset :: ·) (map_data_coordBytes xs xe)
  have hrow : ∀ ys ye : Word, issueEvents c (.rowRange ys ye) =
      .cmd c.opRaset :: (bigEndian ys.toNat ++ bigEndian ye.toNat) :=
    fun ys ye => congrArg (Event.cmd c.opRaset :: ·) (map_data_coordBytes ys ye)
  exact ⟨rfl, rfl, fun _ => rfl, hcolumn, hrow, rfl, rfl, fun _ => rfl⟩

end Sys2Proof.Machine

/-! The statements on the sequencer: INIT from its first event to READY or to the failing event (R101 to R111), and
SET_ORIENTATION (R112, R113, R115). -/

namespace Sys2Proof.Machine

open Sys2Proof.Claims

/-! ### The frame of the two operations -/

/-- An operation that is no writer keeps the frame of a bus operation (R20, R29, R40). -/
theorem exec_keptButBus {i : Instr} {s t : State} (hi : writesFb i = false) (h : exec i s = .next t) : KeptButBus s t := by
  obtain ⟨hcfg, hhost, hsrc, himg⟩ := exec_frame h
  exact ⟨hcfg, onlyWritersChangeTheFramebuffer i s t hi h, hhost, hsrc, himg⟩

theorem runActs_answersLeft (acts : List BusAct) (s : State) : (runActs acts s).1.answersLeft = s.answersLeft := by
  obtain ⟨_, _, _, _, _, _, hleft, _⟩ := runActs_frame acts s
  exact hleft

/-- A status before any effect is nothing but its response (R184). -/
theorem respond_noEffect (s : State) (st : Status) (rd : List Word) : NoEffect s (s.respond st rd) :=
  ⟨⟨rfl, rfl, rfl, rfl, rfl, rfl, rfl, rfl, rfl⟩, rfl⟩

/-! ### INIT that runs to its end -/

/-- Settles O18: `busOp_end_ok` over INIT's actions, whose last `SEQ_STATE` is READY and which leave the line released. -/
theorem initRunsToReady : Obligations.InitRunsToReady := by
  intro s o ho hok
  obtain ⟨t, run, rfl, hack, htrace, hkept, hacks, hleft⟩ :=
    busOp_end_ok (onErr := fun t => t.setSeq .failed) _ (initActs_events s.cfg o) _ rfl hok
  have hseq : (runActs (initActs s.cfg o) s).1.seq = .ready := by rw [runActs_seq_ok hack, initActs_lastSeq]
  have hresp : (runActs (initActs s.cfg o) s).1.finish.response = [respWord .ok .ready] := by simp [hseq]
  exact ⟨_, (exec_init_supported ho).trans run, htrace, hseq, runActs_initActs_line hack, hresp, hkept, hacks, hleft⟩

/-- The number of events of INIT: ten before the tuning table and two after it (R111). -/
theorem initSequence_length (c : Config) (o : Orientation) :
    (initSequence c o).length = 12 + (c.tuning.map fun e => 1 + e.params.length).sum := by
  simp only [initSequence, List.length_append, List.length_flatMap, List.length_cons, List.length_map, List.length_nil,
    Nat.add_comm 1]
  omega

/-- Settles O19: the trace of `initRunsToReady`, counted. -/
theorem initEventCount : Obligations.InitEventCount := by
  intro s o ho hok
  obtain ⟨t, run, htrace, _⟩ := initRunsToReady s o ho hok
  refine ⟨t, run, ?_⟩
  rw [htrace, List.length_append, acked, List.length_map, initSequence_length, Nat.add_assoc]

/-! ### INIT that is aborted -/

/-- The line after an INIT cut short at its `k`-th answer: active when that is the first RST event, else released, for the
second answered event is the RST that releases it and no RST comes after (R102, R110). -/
theorem lineAfter_failAt_initSequence (c : Config) (o : Orientation) (l : BitVec 1) (k : Nat) :
    lineAfter l (failAt k (initSequence c o)) = if k = 0 then c.rstActive else 1 - c.rstActive := by
  obtain ⟨tl, heq, htl⟩ := initSequence_tail c o
  rw [heq]
  match k with
  | 0 => rfl
  | 1 => rfl
  | k + 2 => exact lineAfter_of_no_rst fun r hr => htl r.event (mem_failAt hr)

/-- INIT's actions, stopped at the event with the `k`-th answer, leave the line at the level last written (R102). -/
theorem runActs_initActs_line_of_failAt {s : State} {o : Orientation} {k : Nat}
    (h : (runActs (initActs s.cfg o) s).1.trace = s.trace ++ failAt k (initSequence s.cfg o)) :
    (runActs (initActs s.cfg o) s).1.rstLine = if k = 0 then s.cfg.rstActive else 1 - s.cfg.rstActive := by
  obtain ⟨new, htrace, hline⟩ := runActs_line (s := s) (initActs_lineMatched s.cfg o)
  have hnew : new = failAt k (initSequence s.cfg o) := List.append_cancel_left (htrace.symm.trans h)
  rw [hline, hnew, lineAfter_failAt_initSequence]

/-- Settles O20: `busOp_end_err` over INIT's actions; the line by `runActs_initActs_line_of_failAt`. -/
theorem initAbortsToFailed : Obligations.InitAbortsToFailed := by
  intro s o k ho hk hfail
  obtain ⟨_, run, htrace, hacks⟩ :=
    busOp_end_err (onErr := fun t => t.setSeq .failed) _ (initActs_events s.cfg o) k hk hfail
  rw [← exec_init_supported ho] at run
  exact ⟨_, run, htrace, rfl, runActs_initActs_line_of_failAt htrace, rfl, exec_keptButBus rfl run, hacks,
    (runActs_answersLeft _ s).trans hfail.1⟩

/-! ### INIT from any state -/

/-- INIT writes the line before its first event, and nothing before that looks at it (R102, R109). -/
theorem busOp_initActs_setLine (s : State) (c : Config) (o : Orientation) (l : BitVec 1) (onErr : State → State) :
    (s.setLine l).busOp (initActs c o) onErr = s.busOp (initActs c o) onErr := by
  have hrun : runActs (initActs c o) (s.setLine l) = runActs (initActs c o) s := rfl
  have hconclude : ∀ t, (s.setLine l).conclude t = s.conclude t := fun _ => rfl
  simp only [State.busOp, hrun, hconclude]

/-- A supported INIT answers the same from every level of the line (R109). -/
theorem exec_init_setLine {s : State} {o : Orientation} (l : BitVec 1) (ho : o ∈ s.cfg.supported) :
    exec (.init o) (s.setLine l) = exec (.init o) s := by
  rw [exec_init_supported ho, exec_init_supported (s := s.setLine l) ho, State.setLine_cfg, busOp_initActs_setLine]

/-- Settles O21: `SEQ_STATE` by `exec_init_setSeq`, the line by `exec_init_setLine`. -/
theorem initRestartsFromTheTop : Obligations.InitRestartsFromTheTop :=
  fun s _ q l ho => (exec_init_setSeq (s := s.setLine l) q ho).trans (exec_init_setLine l ho)

/-! ### An unsupported orientation -/

/-- Settles O22: either operation is then the response alone (`respond_noEffect`). -/
theorem unsupportedOrientationIsRefused : Obligations.UnsupportedOrientationIsRefused := by
  intro s o ho
  have hnone : NoEffect s (s.respond .illegalCommand []) := respond_noEffect s .illegalCommand []
  exact ⟨⟨_, exec_init_unsupported ho, rfl, hnone⟩, ⟨_, exec_setOrientation_unsupported ho, rfl, hnone⟩⟩

/-! ### SET_ORIENTATION -/

/-- The orientation command is a command byte and one parameter byte (R94). -/
theorem issueEvents_orientation (c : Config) (o : Orientation) :
    issueEvents c (.orientation o) = [.cmd c.opMadctl, .data (c.madctlVal o)] := rfl

/-- Settles O23: `busOp_end_ok` over the command's two events, which touch neither `SEQ_STATE` nor the line. -/
theorem setOrientationSendsTheCommand : Obligations.SetOrientationSendsTheCommand := by
  intro s o ho hok
  obtain ⟨t, run, rfl, _, htrace, hkept, hacks, hleft⟩ :=
    busOp_end_ok (onErr := fun t => t) _ (actEvents_map_emit (issueEvents s.cfg (.orientation o))) 2 rfl hok
  rw [issueEvents_orientation] at htrace
  obtain ⟨hseq, hline⟩ := busOp_emits_keeps run
  have hresp := congrArg (fun q => [respWord .ok q]) hseq
  exact ⟨_, (exec_setOrientation_supported ho).trans run, htrace, hresp, hseq, hline, hkept, hacks, hleft⟩

/-- Settles O24: `busOp_end_err` over the command's two events, which touch neither `SEQ_STATE` nor the line. -/
theorem setOrientationTransportError : Obligations.SetOrientationTransportError := by
  intro s o k ho hk hfail
  obtain ⟨_, run, htrace, hacks⟩ :=
    busOp_end_err (onErr := fun t => t) _ (actEvents_map_emit (issueEvents s.cfg (.orientation o))) k hk hfail
  obtain ⟨hseq, hline⟩ := busOp_emits_keeps run
  rw [← exec_setOrientation_supported ho] at run
  have hresp := congrArg (fun q => [respWord .transportError q]) hseq
  exact ⟨_, run, htrace, hresp, hseq, hline, exec_keptButBus rfl run, hacks, (runActs_answersLeft _ s).trans hfail.1⟩

end Sys2Proof.Machine

/-! The statements on the framebuffer operations (R120 to R128): FB_CLEAR, the two pixel operations and FB_COPY_REGION. -/

namespace Sys2Proof.Machine

open Sys2Proof.Claims

/-! ### What the four operations answer -/

/-- The writes of FB_CLEAR (R121): the colour to every word address below `n`. -/
def clearWrites (n : Nat) (c : Word) : List FbCell := (List.range n).map fun a => (a, c)

theorem exec_fbClear (c : Word) (s : State) :
    exec (.fbClear c) s = .next ((s.fbWriteAll (clearWrites s.cfg.nPix c)).respond .ok []) := rfl

theorem fbAddr_of_outside {c : Config} {x y : Word} (h : c.fbW.toNat ≤ x.toNat ∨ c.fbH.toNat ≤ y.toNat) :
    fbAddr c x y = none := if_neg (by omega)

theorem exec_fbWritePixel_inside {s : State} {x y : Word} (c : Word) (hx : x.toNat < s.cfg.fbW.toNat)
    (hy : y.toNat < s.cfg.fbH.toNat) : exec (.fbWritePixel x y c) s =
      .next ((s.fbWrite (y.toNat * s.cfg.fbW.toNat + x.toNat) c).respond .ok []) := by
  simp only [exec, execFbWritePixel, fbAddr_of_lt hx hy, State.finish_eq]

theorem exec_fbWritePixel_outside {s : State} {x y : Word} (c : Word)
    (h : s.cfg.fbW.toNat ≤ x.toNat ∨ s.cfg.fbH.toNat ≤ y.toNat) :
    exec (.fbWritePixel x y c) s = .next (s.respond .outOfBounds []) := by
  simp only [exec, execFbWritePixel, fbAddr_of_outside h, State.raise_eq]

theorem exec_fbReadPixel_inside {s : State} {x y : Word} (hx : x.toNat < s.cfg.fbW.toNat)
    (hy : y.toNat < s.cfg.fbH.toNat) : exec (.fbReadPixel x y) s =
      .next (s.respond .ok [s.fbRead (y.toNat * s.cfg.fbW.toNat + x.toNat)]) := by
  simp only [exec, execFbReadPixel, fbAddr_of_lt hx hy]

theorem exec_fbReadPixel_outside {s : State} {x y : Word}
    (h : s.cfg.fbW.toNat ≤ x.toNat ∨ s.cfg.fbH.toNat ≤ y.toNat) :
    exec (.fbReadPixel x y) s = .next (s.respond .outOfBounds []) := by
  simp only [exec, execFbReadPixel, fbAddr_of_outside h, State.raise_eq]

section CopyRegion

variable {s : State} {sx0 sy0 sx1 sy1 dx dy srcW srcH : Word}

/-- Check (a) of R125. -/
theorem exec_fbCopyRegion_inverted (h : sx1.toNat < sx0.toNat ∨ sy1.toNat < sy0.toNat) :
    exec (.fbCopyRegion sx0 sy0 sx1 sy1 dx dy srcW srcH) s = .next (s.respond .invalidRegion []) := if_pos h

/-- Check (b) of R125. -/
theorem exec_fbCopyRegion_zeroArea (hinv : ¬(sx1.toNat < sx0.toNat ∨ sy1.toNat < sy0.toNat))
    (h : sx0 = sx1 ∨ sy0 = sy1) :
    exec (.fbCopyRegion sx0 sy0 sx1 sy1 dx dy srcW srcH) s = .next (s.respond .ok []) := by
  have harea : sx1.toNat - sx0.toNat = 0 ∨ sy1.toNat - sy0.toNat = 0 :=
    h.imp (fun hx => by rw [hx, Nat.sub_self]) (fun hy => by rw [hy, Nat.sub_self])
  exact (if_neg hinv).trans (if_pos harea)

/-- A source that is neither inverted nor of zero area has a width and a height. -/
theorem copy_source_has_area (hinv : ¬(sx1.toNat < sx0.toNat ∨ sy1.toNat < sy0.toNat))
    (hzero : ¬(sx0 = sx1 ∨ sy0 = sy1)) : sx0.toNat < sx1.toNat ∧ sy0.toNat < sy1.toNat := by
  rw [← BitVec.toNat_inj, ← BitVec.toNat_inj] at hzero
  omega

/-- Checks (c) and (d) of R125. -/
theorem exec_fbCopyRegion_beyond (hx : sx0.toNat < sx1.toNat) (hy : sy0.toNat < sy1.toNat)
    (h : srcW.toNat < sx1.toNat ∨ srcH.toNat < sy1.toNat ∨
      s.cfg.fbW.toNat < dx.toNat + (sx1.toNat - sx0.toNat) ∨ s.cfg.fbH.toNat < dy.toNat + (sy1.toNat - sy0.toNat)) :
    exec (.fbCopyRegion sx0 sy0 sx1 sy1 dx dy srcW srcH) s = .next (s.respond .outOfBounds []) := by
  rw [exec, execFbCopyRegion, if_neg (by omega), if_neg (by omega)]
  by_cases hsrc : srcW.toNat < sx1.toNat ∨ srcH.toNat < sy1.toNat
  · exact if_pos hsrc
  · exact (if_neg hsrc).trans (if_pos (by omega))

/-- A copy that passes every check of R125. -/
theorem exec_fbCopyRegion_within (hx : sx0.toNat < sx1.toNat) (hy : sy0.toNat < sy1.toNat)
    (hsx : sx1.toNat ≤ srcW.toNat) (hsy : sy1.toNat ≤ srcH.toNat)
    (hdx : dx.toNat + (sx1.toNat - sx0.toNat) ≤ s.cfg.fbW.toNat)
    (hdy : dy.toNat + (sy1.toNat - sy0.toNat) ≤ s.cfg.fbH.toNat) :
    exec (.fbCopyRegion sx0 sy0 sx1 sy1 dx dy srcW srcH) s =
      .next ((s.fbWriteAll (copyWrites s sx0.toNat sy0.toNat dx.toNat dy.toNat srcW.toNat
        (sx1.toNat - sx0.toNat) (sy1.toNat - sy0.toNat))).respond .ok []) := by
  rw [exec, execFbCopyRegion, if_neg (by omega), if_neg (by omega), if_neg (by omega), if_neg (by omega),
    State.finish_eq]

end CopyRegion

/-- Framebuffer writes followed by a response touch nothing but the framebuffer and the response port. -/
theorem respond_fbWriteAll_keptButFb (s : State) (ws : List FbCell) (st : Status) (rd : List Word) :
    KeptButFb s ((s.fbWriteAll ws).respond st rd) := ⟨rfl, rfl, rfl, rfl, rfl, rfl, rfl, rfl, rfl⟩

/-! ### All four operations -/

/-- A framebuffer operation answers a next state, whatever its operands. -/
theorem exec_framebufferOp_next {i : Instr} (s : State) (hi : isFramebufferOp i = true) : ∃ t, exec i s = .next t := by
  cases i with
  | fbClear c => exact ⟨_, exec_fbClear c s⟩
  | fbWritePixel x y c =>
    by_cases h : x.toNat < s.cfg.fbW.toNat ∧ y.toNat < s.cfg.fbH.toNat
    · exact ⟨_, exec_fbWritePixel_inside c h.1 h.2⟩
    · exact ⟨_, exec_fbWritePixel_outside c (by omega)⟩
  | fbReadPixel x y =>
    by_cases h : x.toNat < s.cfg.fbW.toNat ∧ y.toNat < s.cfg.fbH.toNat
    · exact ⟨_, exec_fbReadPixel_inside h.1 h.2⟩
    · exact ⟨_, exec_fbReadPixel_outside (by omega)⟩
  | fbCopyRegion sx0 sy0 sx1 sy1 dx dy srcW srcH =>
    simp only [exec, execFbCopyRegion]
    split_ifs <;> exact ⟨_, rfl⟩
  | _ => cases hi

/-- Settles O48: of the ways an operation ends (`exec_kind`), the two on the bus are no framebuffer operation's. -/
theorem framebufferOperationsEmitNothing : Obligations.FramebufferOperationsEmitNothing := by
  intro i s hi
  obtain ⟨t, run⟩ := exec_framebufferOp_next s hi
  refine ⟨t, run, ?_⟩
  cases exec_kind run with
  | reject st _ _ eq => exact eq ▸ (respond_noEffect s st []).1
  | nothing _ _ eq => exact eq ▸ (respond_noEffect s .ok []).1
  | read v _ _ eq => exact eq ▸ (respond_noEffect s .ok [v]).1
  | write ws _ _ _ _ eq => exact eq ▸ respond_fbWriteAll_keptButFb s ws .ok []
  | init o hinit _ => subst hinit; cases hi
  | bus _ _ hno _ _ _ => rw [hi] at hno; cases hno

/-! ### FB_CLEAR -/

theorem fbLookup_clear (m : List FbCell) (n a : Nat) (c : Word) :
    fbLookup (fbSetAll m (clearWrites n c)) a = if a < n then some c else fbLookup m a := by
  have hmem : ∀ w ∈ clearWrites n c, w.1 < n ∧ w.2 = c := by
    simp [clearWrites]
  split
  · rename_i ha
    have hwrite : (a, c) ∈ clearWrites n c := List.mem_map.mpr ⟨a, List.mem_range.mpr ha, rfl⟩
    exact fbLookup_fbSetAll_of_mem hwrite fun w hw _ => (hmem w hw).2
  · rename_i ha
    exact fbLookup_fbSetAll_of_not_mem fun w hw hwa => ha (hwa ▸ (hmem w hw).1)

/-- Settles O25, by `fbLookup_clear` on either side of `N_PIX`. -/
theorem fbClearWritesEveryWord : Obligations.FbClearWritesEveryWord := by
  intro s c
  refine ⟨encode_fbClear c, _, exec_fbClear c s, fun a ha => ?_, fun a ha => ?_, rfl,
    respond_fbWriteAll_keptButFb s _ .ok []⟩
  · exact (fbLookup_clear s.fb _ a c).trans (if_pos ha)
  · exact (fbLookup_clear s.fb _ a c).trans (if_neg (Nat.not_lt.mpr ha))

/-- On a canonical list a second clear writes what is already there: the two lists read alike. -/
theorem fbSetAll_clear_clear {m : List FbCell} (h : fbWf m = true) (n : Nat) (c : Word) :
    fbSetAll (fbSetAll m (clearWrites n c)) (clearWrites n c) = fbSetAll m (clearWrites n c) := by
  have hcleared : fbWf (fbSetAll m (clearWrites n c)) = true := fbSetAll_wf _ h
  refine fbWf_ext (fbSetAll_wf _ hcleared) hcleared fun a => ?_
  simp only [fbLookup_clear]
  split <;> rfl

theorem fbWriteAll_eq_self {s : State} {ws : List FbCell} (h : fbSetAll s.fb ws = s.fb) : s.fbWriteAll ws = s := by
  rw [State.fbWriteAll, h]

/-- Settles O26: by `fbSetAll_clear_clear` the second clear is a response alone, and the same one. -/
theorem fbClearIsIdempotent : Obligations.FbClearIsIdempotent := by
  intro s c hwf
  refine ⟨_, _, exec_fbClear c s, exec_fbClear c _, ?_⟩
  rw [fbWriteAll_eq_self (fbSetAll_clear_clear hwf s.cfg.nPix c)]
  rfl

/-! ### The pixel operations -/

/-- Settles O27: the one write defines its own word and leaves the others. -/
theorem fbWritePixelWritesOneWord : Obligations.FbWritePixelWritesOneWord := by
  intro s x y c hx hy
  exact ⟨_, exec_fbWritePixel_inside c hx hy, fbLookup_fbSet_self s.fb _ c, fun _ ha => fbLookup_fbSet_ne s.fb c ha, rfl,
    respond_fbWriteAll_keptButFb s [(_, c)] .ok []⟩

theorem fbRead_of_some {s : State} {a : Nat} {v : Word} (h : fbLookup s.fb a = some v) : s.fbRead a = v := by
  rw [State.fbRead, h, Option.getD_some]

theorem fbRead_of_none {s : State} {a : Nat} (h : fbLookup s.fb a = none) :
    s.fbRead a = Config.freeWord s.draws a := by
  rw [State.fbRead, h, Option.getD_none, State.undefinedWord]

/-- Settles O28: the value read is that of `fbRead_of_some` or `fbRead_of_none`. -/
theorem fbReadPixelReturnsTheWord : Obligations.FbReadPixelReturnsTheWord := by
  intro s x y hx hy
  exact ⟨_, _, exec_fbReadPixel_inside hx hy, rfl, fun _ => fbRead_of_some, fbRead_of_none, respond_noEffect s .ok _⟩

/-- Settles O29: either operation is then the response alone (`respond_noEffect`). -/
theorem outOfBoundsPixelHasNoEffect : Obligations.OutOfBoundsPixelHasNoEffect := by
  intro s x y c hout
  have hnone : NoEffect s (s.respond .outOfBounds []) := respond_noEffect s .outOfBounds []
  exact ⟨⟨_, exec_fbWritePixel_outside c hout, rfl, hnone⟩, ⟨_, exec_fbReadPixel_outside hout, rfl, hnone⟩⟩

/-- Settles O30: each step runs its packet's operation (`step_of_op`, `decode_encode`), and the word read is the one
written. -/
theorem writeThenReadPacketsReturnTheColour : Obligations.WriteThenReadPacketsReturnTheColour := by
  intro s x y c later hx hy hhost
  obtain ⟨t, write, hword, _, hresp, hcfg, hseq, _, _, htail, _⟩ := fbWritePixelWritesOneWord
    (s.accept ⟨encode (.fbWritePixel x y c), [], []⟩ (.packet ⟨encode (.fbReadPixel x y), [], []⟩ :: later)) x y c hx hy
  rw [State.accept_cfg] at hcfg hword
  rw [← hcfg] at hx hy hword
  obtain ⟨u, v, read, hread, hdefined, _, _⟩ :=
    fbReadPixelReturnsTheWord (t.accept ⟨encode (.fbReadPixel x y), [], []⟩ later) x y hx hy
  refine ⟨t, u, (step_of_op hhost (decode_encode _)).trans write, (step_of_op htail (decode_encode _)).trans read, hresp, ?_⟩
  rw [hread, hdefined c hword, State.accept_seq, hseq, State.accept_seq]

/-! ### FB_COPY_REGION -/

/-- Settles O31, along the checks of R125; each ends in a response alone. -/
theorem copyRegionChecksInOrder : Obligations.CopyRegionChecksInOrder := by
  intro s sx0 sy0 sx1 sy1 dx dy srcW srcH st h
  split_ifs at h with hinv hzero
  · subst h
    exact ⟨_, exec_fbCopyRegion_inverted hinv, rfl, respond_noEffect s .invalidRegion []⟩
  · subst h
    exact ⟨_, exec_fbCopyRegion_zeroArea hinv hzero, rfl, respond_noEffect s .ok []⟩
  · obtain ⟨hbeyond, rfl⟩ := h
    obtain ⟨hx, hy⟩ := copy_source_has_area hinv hzero
    exact ⟨_, exec_fbCopyRegion_beyond hx hy hbeyond, rfl, respond_noEffect s .outOfBounds []⟩

theorem mem_copyWrites {s : State} {sx0 sy0 dx dy srcW w h : Nat} {cell : FbCell} :
    cell ∈ copyWrites s sx0 sy0 dx dy srcW w h ↔ ∃ i j, i < w ∧ j < h ∧
      cell = ((dy + j) * s.cfg.fbW.toNat + (dx + i), s.srcRead ((sy0 + j) * srcW + (sx0 + i))) := by
  simp only [copyWrites, List.mem_flatMap, List.mem_map, List.mem_range]
  constructor
  · rintro ⟨j, hj, i, hi, rfl⟩
    exact ⟨i, j, hi, hj, rfl⟩
  · rintro ⟨i, j, hi, hj, rfl⟩
    exact ⟨j, hj, i, hi, rfl⟩

/-- A block no wider than what is left of the framebuffer's rows has one address per place, so each of its places ends up
with its own source word (R124). -/
theorem fbLookup_copyWrites {s : State} {m : List FbCell} {sx0 sy0 dx dy srcW w h i j : Nat}
    (hw : dx + w ≤ s.cfg.fbW.toNat) (hi : i < w) (hj : j < h) :
    fbLookup (fbSetAll m (copyWrites s sx0 sy0 dx dy srcW w h)) ((dy + j) * s.cfg.fbW.toNat + (dx + i)) =
      some (s.srcRead ((sy0 + j) * srcW + (sx0 + i))) := by
  refine fbLookup_fbSetAll_of_mem (mem_copyWrites.mpr ⟨i, j, hi, hj, rfl⟩) fun cell hcell haddr => ?_
  obtain ⟨i', j', hi', _, rfl⟩ := mem_copyWrites.mp hcell
  obtain ⟨hrow, hcol⟩ := rowMajor_inj (by omega) (by omega) haddr
  rw [Nat.add_left_cancel hrow, Nat.add_left_cancel hcol]

theorem srcRead_of_lt {s : State} {i : Nat} (h : i < s.src.length) : s.src[i]? = some (s.srcRead i) := by
  rw [State.srcRead, List.getElem?_eq_getElem h, Option.getD_some]

/-- Settles O32: inside the block by `fbLookup_copyWrites`, whose source words the side data holds; no other word is among
the writes. -/
theorem copyRegionCopiesTheBlock : Obligations.CopyRegionCopiesTheBlock := by
  intro s sx0 sy0 sx1 sy1 dx dy srcW srcH hx hy hsx hsy hdx hdy hlen
  refine ⟨_, exec_fbCopyRegion_within hx hy hsx hsy hdx hdy, fun i j hi hj => ?_, fun a ha => ?_, rfl,
    respond_fbWriteAll_keptButFb s _ .ok []⟩
  · have hindex : (sy0.toNat + j) * srcW.toNat + (sx0.toNat + i) < s.src.length := by
      rw [hlen]
      exact rowMajor_lt (by omega) (by omega)
    exact (fbLookup_copyWrites hdx hi hj).trans (srcRead_of_lt hindex).symm
  · refine fbLookup_fbSetAll_of_not_mem fun cell hcell haddr => ?_
    obtain ⟨i, j, hi, hj, rfl⟩ := mem_copyWrites.mp hcell
    exact ha i j hi hj haddr.symm

end Sys2Proof.Machine

/-! The statements on a pixel's bytes and fields (R149, R150) and on the region operations (R140 to R159): the checks that end
SHOW_REGION and DRAW_IMAGE early, what the operations send, and what they leave alone. -/

namespace Sys2Proof.Machine

open Sys2Proof.Claims

/-! ### A pixel's bytes and fields -/

theorem pixelRed_toNat (v : Word) : (pixelRed v).toNat = v.toNat / 2048 := by
  have hlt : v.toNat / 2048 < 32 := by omega
  simp [pixelRed, Nat.shiftRight_eq_div_pow, Nat.mod_eq_of_lt hlt]

theorem pixelGreen_toNat (v : Word) : (pixelGreen v).toNat = v.toNat / 32 % 64 := by
  simp [pixelGreen, Nat.shiftRight_eq_div_pow]

theorem pixelBlue_toNat (v : Word) : (pixelBlue v).toNat = v.toNat % 32 := by simp [pixelBlue]

/-- Settles O7: the bytes by `unpack_eq`, the fields by their numbers. -/
theorem unpackAndPixelFields : Obligations.UnpackAndPixelFields := fun v =>
  ⟨unpack_eq v, pixelRed_toNat v, pixelGreen_toNat v, pixelBlue_toNat v⟩

/-! ### The three operations as one procedure -/

theorem exec_showRegion (x0 y0 x1 y1 : Word) (s : State) :
    exec (.showRegion x0 y0 x1 y1) s = s.regionCore ⟨x0, y0, x1, y1⟩ (sourceFb s.cfg) := rfl

theorem exec_drawImage (x0 y0 x1 y1 : Word) (len : BitVec 32) (s : State) :
    exec (.drawImage x0 y0 x1 y1 len) s = s.regionCore ⟨x0, y0, x1, y1⟩ (sourceImg ⟨x0, y0, x1, y1⟩ len) := rfl

/-- SHOW is SHOW_REGION of the whole panel (R154). -/
theorem exec_showPanel (s : State) : exec .showPanel s = exec (.showRegion 0 0 s.cfg.panelW s.cfg.panelH) s := rfl

/-- Settles O36: both run `RegionCore` over the panel's bounds. -/
theorem showIsShowRegionOfThePanel : Obligations.ShowIsShowRegionOfThePanel := exec_showPanel

/-! ### The checks that end an operation before any event (R141 to R145) -/

section Checks

variable {s : State} {r : Region} {d : SourceDesc}

theorem regionCore_of_rejected {st : Status} (h : translateRegion s.cfg r d = .rejected st) :
    s.regionCore r d = .next (s.respond st []) := by
  simp only [State.regionCore, h, State.raise_eq]

theorem regionCore_of_nothing (h : translateRegion s.cfg r d = .nothing) :
    s.regionCore r d = .next (s.respond .ok []) := by
  simp only [State.regionCore, h, State.finish_eq]

/-- Check (a) of R152. -/
theorem regionCore_inverted (h : r.x1.toNat < r.x0.toNat ∨ r.y1.toNat < r.y0.toNat) :
    s.regionCore r d = .next (s.respond .invalidRegion []) :=
  regionCore_of_rejected (if_pos h)

/-- Check (b) of R152. -/
theorem regionCore_zeroArea (hinv : ¬(r.x1.toNat < r.x0.toNat ∨ r.y1.toNat < r.y0.toNat))
    (h : r.x0 = r.x1 ∨ r.y0 = r.y1) : s.regionCore r d = .next (s.respond .ok []) := by
  rw [← BitVec.toNat_inj, ← BitVec.toNat_inj] at h
  exact regionCore_of_nothing ((if_neg hinv).trans (if_pos h))

/-- Check (c) of R152. -/
theorem regionCore_outsidePanel (hx : r.x0.toNat < r.x1.toNat) (hy : r.y0.toNat < r.y1.toNat)
    (h : s.cfg.panelW.toNat ≤ r.x0.toNat ∨ s.cfg.panelH.toNat ≤ r.y0.toNat) :
    s.regionCore r d = .next (s.respond .outOfBounds []) := by
  refine regionCore_of_rejected ?_
  rw [translateRegion, if_neg (by omega), if_neg (by omega), if_pos h]

/-- Check (d) of R152. -/
theorem regionCore_beyondSource (hx : r.x0.toNat < r.x1.toNat) (hy : r.y0.toNat < r.y1.toNat)
    (hpx : r.x0.toNat < s.cfg.panelW.toNat) (hpy : r.y0.toNat < s.cfg.panelH.toNat)
    (h : outsideSource (clampToPanel s.cfg r) d = true) : s.regionCore r d = .next (s.respond .outOfBounds []) := by
  refine regionCore_of_rejected ?_
  rw [translateRegion, if_neg (by omega), if_neg (by omega), if_neg (by omega), if_pos h]

end Checks

/-- Settles O33, along the first three checks of `RegionCore`, which do not look at the source; each ends in a response
alone. -/
theorem regionChecksBeforeTheBuffer : Obligations.RegionChecksBeforeTheBuffer := by
  intro s x0 y0 x1 y1 len st h
  have hend : ∀ d, s.regionCore ⟨x0, y0, x1, y1⟩ d = .next (s.respond st []) := by
    intro d
    split_ifs at h with hinv hzero
    · subst h
      exact regionCore_inverted hinv
    · subst h
      exact regionCore_zeroArea hinv hzero
    · obtain ⟨hout, rfl⟩ := h
      obtain ⟨hx, hy⟩ := copy_source_has_area hinv hzero
      exact regionCore_outsidePanel hx hy hout
  have hnone : NoEffect s (s.respond st []) := respond_noEffect s st []
  exact ⟨⟨_, hend _, rfl, hnone⟩, ⟨_, hend _, rfl, hnone⟩⟩

/-- The clamped region exceeds the framebuffer (R143, R145). -/
theorem outsideSource_fb_iff (c : Config) (r : Region) : outsideSource (clampToPanel c r) (sourceFb c) = true ↔
    c.fbW.toNat < min r.x1.toNat c.panelW.toNat ∨ c.fbH.toNat < min r.y1.toNat c.panelH.toNat := by
  simp [outsideSource, clampToPanel, sourceFb]

/-- The clamped region is never wider than the image's row; it exceeds the image when it has more rows (R143, R145). -/
theorem outsideSource_img_iff (c : Config) (r : Region) (len : BitVec 32) :
    outsideSource (clampToPanel c r) (sourceImg r len) = true ↔
      len.toNat / (2 * (r.x1.toNat - r.x0.toNat)) < min r.y1.toNat c.panelH.toNat - r.y0.toNat := by
  simp only [outsideSource, Bool.or_eq_true, decide_eq_true_eq]
  simp only [clampToPanel, sourceImg]
  generalize len.toNat / (2 * (r.x1.toNat - r.x0.toNat)) = rows
  omega

/-- Settles O34: check (d), its source read by `outsideSource_fb_iff` and `outsideSource_img_iff`. -/
theorem regionBeyondItsBufferIsOutOfBounds : Obligations.RegionBeyondItsBufferIsOutOfBounds := by
  intro s x0 y0 x1 y1 len hx hy hpx hpy
  have hnone : NoEffect s (s.respond .outOfBounds []) := respond_noEffect s .outOfBounds []
  exact
    ⟨fun h => ⟨_, regionCore_beyondSource hx hy hpx hpy ((outsideSource_fb_iff _ _).mpr h), rfl, hnone⟩,
      fun h => ⟨_, regionCore_beyondSource hx hy hpx hpy ((outsideSource_img_iff _ _ _).mpr h), rfl, hnone⟩⟩

/-- Settles O38: O34 for the panel's bounds, which are clamped to themselves. -/
theorem showOfASmallFramebufferIsOutOfBounds : Obligations.ShowOfASmallFramebufferIsOutOfBounds := by
  intro s hw hh h
  obtain ⟨hbeyond, _⟩ := regionBeyondItsBufferIsOutOfBounds s 0 0 s.cfg.panelW s.cfg.panelH 0 hw hh hw hh
  rw [exec_showPanel]
  exact hbeyond (by simpa using h)

/-! ### What an operation sends (R146, R147, R151, R152) -/

/-- The window of a clamped region: inclusive ends, and no coordinate is cut to 16 bits (R146). -/
theorem windowEvents_clampToPanel (c : Config) (r : Region) : windowEvents c (clampToPanel c r) =
    windowSequence c r.x0.toNat (min r.x1.toNat c.panelW.toNat - 1) r.y0.toNat (min r.y1.toNat c.panelH.toNat - 1) :=
  windowEvents_eq c _ r.x0.isLt ((Nat.min_le_left _ _).trans r.x1.isLt.le) r.y0.isLt
    ((Nat.min_le_left _ _).trans r.y1.isLt.le)

theorem regionEvents_fb (s : State) (r : Region) : s.regionEvents (sourceFb s.cfg) (clampToPanel s.cfg r) =
    windowSequence s.cfg r.x0.toNat (min r.x1.toNat s.cfg.panelW.toNat - 1) r.y0.toNat
      (min r.y1.toNat s.cfg.panelH.toNat - 1) ++
    fbPixelSequence s r.x0.toNat r.y0.toNat (min r.x1.toNat s.cfg.panelW.toNat - r.x0.toNat)
      (min r.y1.toNat s.cfg.panelH.toNat - r.y0.toNat) := by
  rw [State.regionEvents, windowEvents_clampToPanel, pixelEvents_fb]
  rfl

theorem regionEvents_img {s : State} {x0 y0 x1 y1 : Word} {len : BitVec 32} (hx : x0.toNat < x1.toNat)
    (hlen : s.img.length = len.toNat)
    (hrows : min y1.toNat s.cfg.panelH.toNat - y0.toNat ≤ len.toNat / (2 * (x1.toNat - x0.toNat))) :
    s.regionEvents (sourceImg ⟨x0, y0, x1, y1⟩ len) (clampToPanel s.cfg ⟨x0, y0, x1, y1⟩) =
      windowSequence s.cfg x0.toNat (min x1.toNat s.cfg.panelW.toNat - 1) y0.toNat
        (min y1.toNat s.cfg.panelH.toNat - 1) ++
      imgPixelSequence s.img (x1.toNat - x0.toNat) (min x1.toNat s.cfg.panelW.toNat - x0.toNat)
        (min y1.toNat s.cfg.panelH.toNat - y0.toNat) := by
  rw [State.regionEvents, windowEvents_clampToPanel,
    pixelEvents_img s x0 y0 x1 y1 len _ hlen rfl rfl (Nat.min_le_left _ _) hx hrows]
  rfl

/-- A region that starts on the panel and, clamped to it, lies inside the framebuffer passes every check (R145). -/
theorem translateRegion_fb_within {c : Config} {x0 y0 x1 y1 : Word} (hx : x0.toNat < x1.toNat) (hy : y0.toNat < y1.toNat)
    (hpx : x0.toNat < c.panelW.toNat) (hpy : y0.toNat < c.panelH.toNat)
    (hfx : min x1.toNat c.panelW.toNat ≤ c.fbW.toNat) (hfy : min y1.toNat c.panelH.toNat ≤ c.fbH.toNat) :
    translateRegion c ⟨x0, y0, x1, y1⟩ (sourceFb c) = .window (clampToPanel c ⟨x0, y0, x1, y1⟩) := by
  refine translateRegion_of_checks hx hy hpx hpy (Bool.eq_false_iff.mpr fun hbeyond => ?_)
  exact ((outsideSource_fb_iff _ _).mp hbeyond).elim hfx.not_gt hfy.not_gt

/-- Settles O35: `regionCore_end_ok` over the clamped window, its events spelled out by `regionEvents_fb`. -/
theorem showRegionStreamsTheClampedRegion : Obligations.ShowRegionStreamsTheClampedRegion := by
  rintro s x0 y0 x1 y1 _ _ hx hy hpx hpy rfl rfl hfx hfy hok
  have hend := regionCore_end_ok (translateRegion_fb_within hx hy hpx hpy hfx hfy) hok
  rwa [regionEvents_fb] at hend

/-- Settles O40: `regionCore_end_err` over the clamped window, its events spelled out by `regionEvents_fb`. -/
theorem showRegionTransportError : Obligations.ShowRegionTransportError := by
  rintro s x0 y0 x1 y1 _ _ k hx hy hpx hpy rfl rfl hfx hfy hk hfail
  have hend := regionCore_end_err (translateRegion_fb_within hx hy hpx hpy hfx hfy) hk hfail
  rwa [regionEvents_fb] at hend

/-- Settles O37: O35 for the panel's bounds, which are clamped to themselves. -/
theorem showStreamsThePanel : Obligations.ShowStreamsThePanel := by
  intro s hw hh hfw hfh hok
  rw [exec_showPanel]
  exact showRegionStreamsTheClampedRegion s 0 0 s.cfg.panelW s.cfg.panelH _ _ hw hh hw hh (Nat.min_self _).symm
    (Nat.min_self _).symm hfw hfh hok

/-- Settles O39: `regionCore_end_ok` over the clamped window, its events spelled out by `regionEvents_img`. -/
theorem drawImageStreamsTheImage : Obligations.DrawImageStreamsTheImage := by
  rintro s x0 y0 x1 y1 len _ _ hx hy hpx hpy rfl rfl hrows hlen hok
  have hinside : outsideSource (clampToPanel s.cfg ⟨x0, y0, x1, y1⟩) (sourceImg ⟨x0, y0, x1, y1⟩ len) = false :=
    Bool.eq_false_iff.mpr fun hbeyond => hrows.not_gt ((outsideSource_img_iff _ _ _).mp hbeyond)
  have hend := regionCore_end_ok (translateRegion_of_checks hx hy hpx hpy hinside) hok
  rwa [regionEvents_img hx hlen hrows] at hend

/-! ### How many events (R142, R156), and what is left alone (R159) -/

theorem translateRegion_nothing {c : Config} {r : Region} {d : SourceDesc} (h : translateRegion c r d = .nothing) :
    r.x0 = r.x1 ∨ r.y0 = r.y1 := by
  rw [← BitVec.toNat_inj, ← BitVec.toNat_inj]
  unfold translateRegion at h
  split_ifs at h with _ hzero
  exact hzero

/-- A status before any effect is not OK, so a region operation that is OK sent its window or had no area. -/
theorem translateRegion_of_ok {s t : State} {r : Region} {d : SourceDesc} (h : s.regionCore r d = .next t)
    (hok : t.response = [respWord .ok t.seq]) :
    translateRegion s.cfg r d = .nothing ∨ ∃ w, translateRegion s.cfg r d = .window w := by
  rcases regionCore_next h with ⟨st, htr, rfl⟩ | ⟨htr, _⟩ | ⟨w, htr, _⟩
  · have hst : st = .ok := (respWord_inj (List.head_eq_of_cons_eq hok)).1
    rcases translateRegion_rejected htr with rfl | rfl <;> cases hst
  · exact .inl htr
  · exact .inr ⟨w, htr⟩

/-- The number of events of a region operation that is OK (R156). -/
theorem regionCore_ok_trace_length {s t : State} {r : Region} {d : SourceDesc} (h : s.regionCore r d = .next t)
    (hok : t.response = [respWord .ok t.seq]) : t.trace.length = s.trace.length +
      (if r.x0 = r.x1 ∨ r.y0 = r.y1 then 0 else 11 + 2 * windowArea (clampToPanel s.cfg r)) := by
  rw [regionCore_ok_trace h hok, List.length_append, acked, List.length_map]
  rcases translateRegion_of_ok h hok with htr | ⟨w, htr⟩
  · rw [sentEvents_nothing htr, if_pos (translateRegion_nothing htr), List.length_nil]
  · obtain ⟨rfl, hx, hy, _⟩ := translateRegion_window htr
    have harea : ¬(r.x0 = r.x1 ∨ r.y0 = r.y1) := by
      rw [← BitVec.toNat_inj, ← BitVec.toNat_inj]
      omega
    rw [sentEvents_window htr, regionEvents_length, if_neg harea]

/-- Settles O41, by `regionCore_ok_trace_length` for either operation. -/
theorem regionEventCounts : Obligations.RegionEventCounts := by
  rintro s t x0 y0 x1 y1 len i (rfl | rfl) run hok
  · exact regionCore_ok_trace_length (r := ⟨x0, y0, x1, y1⟩) run hok
  · exact regionCore_ok_trace_length (r := ⟨x0, y0, x1, y1⟩) run hok

/-- Settles O42: the three are neither writers of the framebuffer (O49) nor INIT, which alone writes `SEQ_STATE` and the line
(`exec_seq_line`) and emits DELAY events (O50). -/
theorem regionOperationsWriteNothing : Obligations.RegionOperationsWriteNothing := by
  intro s t x0 y0 x1 y1 len i hi run
  have hkind : writesFb i = false ∧ isInit i = false := by rcases hi with rfl | rfl | rfl <;> exact ⟨rfl, rfl⟩
  obtain ⟨hwriter, hinit⟩ := hkind
  have hfb : t.fb = s.fb := onlyWritersChangeTheFramebuffer i s t hwriter run
  obtain ⟨hseq, hline⟩ : t.seq = s.seq ∧ t.rstLine = s.rstLine := (exec_seq_line run).resolve_right (by simp [hinit])
  obtain ⟨new, htrace, hdelay⟩ := delayEventsOnlyInInitAndAlwaysOk i s t run
  refine ⟨hfb, hseq, hline, new, htrace, fun r hr => Bool.eq_false_iff.mpr fun hd => ?_⟩
  obtain ⟨hisInit, _⟩ := hdelay r hr hd
  simp [hinit] at hisInit

end Sys2Proof.Machine

/-! The statements on how an operation ends whatever it is: what its status says of the rest of the state (R184), and that
nothing but a silent environment keeps it from ending (R187, R212). -/

namespace Sys2Proof.Machine

open Sys2Proof.Claims

/-! ### What the status says (R184) -/

/-- What an operation leaves, read off the status it ends with. -/
inductive EndsBy (i : Instr) (s t : State) : Status → Prop
  /-- The operation did what it is for. -/
  | ok : EndsBy i s t .ok
  /-- A status raised before any effect. -/
  | rejected {st : Status} (hst : st = .outOfBounds ∨ st = .invalidRegion ∨ st = .illegalCommand) (kept : NoEffect s t) :
      EndsBy i s t st
  /-- An operation on the bus, stopped at the event `e` that was acknowledged ERR. -/
  | aborted (fb : t.fb = s.fb) (seq : t.seq = if isInit i then .failed else s.seq) (before : List Event) (e : Event)
      (trace : t.trace = s.trace ++ (acked before ++ [⟨e, .err⟩])) : EndsBy i s t .transportError

/-- The first response word of an operation that ends in a response alone gives its status. -/
theorem status_of_respond {s : State} {st st' : Status} {rd : List Word}
    (h : (s.respond st' rd).response.head? = some (respWord st s.seq)) : st = st' :=
  (respWord_inj (Option.some.inj h)).1.symm

/-- A bus operation ends OK, or with TransportError at the first event acknowledged ERR, its `SEQ_STATE` then being the one
it writes on ERR. -/
theorem busOp_endsBy {i : Instr} {s t : State} {st : Status} {acts : List BusAct} {onErr : State → State}
    (hon : ∀ u, (onErr u).fb = u.fb ∧ (onErr u).trace = u.trace ∧ (onErr u).rstLine = u.rstLine)
    (hseq : (onErr (runActs acts s).1).seq = if isInit i then .failed else s.seq)
    (run : s.busOp acts onErr = .next t) (hst : t.response.head? = some (respWord st t.seq)) : EndsBy i s t st := by
  obtain ⟨hfb, htrace, _⟩ := busOp_keeps hon run
  rcases busOp_next run with ⟨n, _, _, rfl⟩ | ⟨n, _, herr, rfl⟩ <;> obtain rfl := status_of_respond hst
  · exact .ok
  · obtain ⟨before, e, _, _, _, hsent⟩ := runActs_trace_err herr
    exact .aborted hfb hseq before e (htrace.trans hsent)

/-- Every operation leaves what its status says, by the ways it ends. -/
theorem exec_endsBy {i : Instr} {s t : State} {st : Status} (h : exec i s = .next t)
    (hst : t.response.head? = some (respWord st t.seq)) : EndsBy i s t st := by
  cases exec_kind h with
  | reject st' hrej _ eq =>
    subst eq
    obtain rfl := status_of_respond hst
    exact .rejected hrej (respond_noEffect s _ [])
  | nothing _ _ eq =>
    subst eq
    obtain rfl := status_of_respond hst
    exact .ok
  | read v _ _ eq =>
    subst eq
    obtain rfl := status_of_respond hst
    exact .ok
  | write ws _ _ _ _ eq =>
    subst eq
    obtain rfl := status_of_respond hst
    exact .ok
  | init o hi run =>
    subst hi
    exact busOp_endsBy (by simp) rfl run hst
  | bus es hi _ _ _ run =>
    have hseq : (runActs (es.map .emit) s).1.seq = s.seq := (runActs_emit_frame es s).1
    exact busOp_endsBy (by simp) (by simp [hi, hseq]) run hst

/-- Settles O45, by `exec_endsBy`; after an abort the line is at its last RST event as after every operation (O46). -/
theorem endingStatusLeaves : Obligations.EndingStatusLeaves := by
  intro i s t st h hst
  cases exec_endsBy h hst with
  | ok => simp
  | rejected hrej kept => exact ⟨fun _ => kept, by rintro rfl; simp at hrej⟩
  | aborted hfb hseq before e htrace =>
    obtain ⟨⟨new, hnew, hline⟩, _⟩ := resetLineFollowsTheTrace i s t h
    obtain rfl : new = acked before ++ [⟨e, .err⟩] := List.append_cancel_left (hnew.symm.trans htrace)
    exact ⟨by simp, fun _ => ⟨hfb, hseq, before, e, htrace, hline⟩⟩

/-! ### Nothing but silence stops an operation (R187, R212) -/

/-- An operation's outcome is a next state, or the stop of an environment that fell silent. -/
def AnswersOrSilent (s : State) (out : Host.Outcome State Fault Refusal) : Prop :=
  (∃ t, out = .next t) ∨ (out = .fault .neverAnswered ∧ ∃ k, s.answersLeft = some k)

theorem busOp_answersOrSilent (s : State) (acts : List BusAct) (onErr : State → State) :
    AnswersOrSilent s (s.busOp acts onErr) := conclude_or s _

/-- `RegionCore` answers with a status, or runs on the bus (R152). -/
theorem regionCore_answersOrSilent (s : State) (r : Region) (d : SourceDesc) : AnswersOrSilent s (s.regionCore r d) := by
  cases htr : translateRegion s.cfg r d with
  | rejected st => exact .inl ⟨_, regionCore_of_rejected htr⟩
  | nothing => exact .inl ⟨_, regionCore_of_nothing htr⟩
  | window w =>
    simp only [State.regionCore, htr]
    exact busOp_answersOrSilent s _ _

theorem exec_answersOrSilent (i : Instr) (s : State) : AnswersOrSilent s (exec i s) := by
  cases i with
  | init o =>
    by_cases ho : o ∈ s.cfg.supported
    · exact exec_init_supported ho ▸ busOp_answersOrSilent s _ _
    · exact .inl ⟨_, exec_init_unsupported ho⟩
  | setOrientation o =>
    by_cases ho : o ∈ s.cfg.supported
    · exact exec_setOrientation_supported ho ▸ busOp_answersOrSilent s _ _
    · exact .inl ⟨_, exec_setOrientation_unsupported ho⟩
  | fbClear color => exact .inl (exec_framebufferOp_next s rfl)
  | fbWritePixel x y color => exact .inl (exec_framebufferOp_next s rfl)
  | fbReadPixel x y => exact .inl (exec_framebufferOp_next s rfl)
  | fbCopyRegion sx0 sy0 sx1 sy1 dx dy srcW srcH => exact .inl (exec_framebufferOp_next s rfl)
  | showPanel => exact regionCore_answersOrSilent s _ _
  | showRegion x0 y0 x1 y1 => exact regionCore_answersOrSilent s _ _
  | drawImage x0 y0 x1 y1 len => exact regionCore_answersOrSilent s _ _

/-- Settles O51: the other outcome of `exec_answersOrSilent` asks for an environment whose answers are numbered. -/
theorem everyOperationCompletes : Obligations.EveryOperationCompletes := by
  intro i s hleft
  rcases exec_answersOrSilent i s with hnext | ⟨_, k, hk⟩
  · exact hnext
  · simp [hleft] at hk

end Sys2Proof.Machine

/-! The statements on reset and hazards: the state a block reset leaves (R200, R201), the wait for an input (R209), and the
stop of a bus operation that is never answered (R212). -/

namespace Sys2Proof.Machine

open Sys2Proof.Claims

/-! ### A step without a packet -/

theorem step_of_no_input {s : State} (hhost : s.host = []) : step s = .next s := by
  simp only [step, hhost]

theorem step_of_blockReset {s : State} {later : List HostInput} (hhost : s.host = .blockReset :: later) :
    step s = .next (s.blockReset later) := by
  simp only [step, hhost]

/-- Settles O13, by `step_of_no_input`. -/
theorem stepWithoutInputWaits : Obligations.StepWithoutInputWaits := fun _ hhost => step_of_no_input hhost

/-- Settles O16: each field of `State.resetOf` is the one R201 gives, the framebuffer's list being empty. -/
theorem resetValues : Obligations.ResetValues := fun _ => ⟨fun _ => rfl, rfl, rfl, rfl, rfl⟩

/-- Settles O15: the step is the block reset by `step_of_blockReset`, and its registers are those of `resetValues`. -/
theorem blockResetLeavesTheResetState : Obligations.BlockResetLeavesTheResetState := by
  intro s later hhost
  obtain ⟨hfb, _, hline, htrace, hcfg⟩ := resetValues s.cfg
  exact ⟨s.blockReset later, step_of_blockReset hhost, hfb, s.blockReset_seq later, hline, htrace, hcfg,
    s.blockReset_host later⟩

/-! ### Nothing but silence stops a step, and silence stops a bus operation (R212) -/

theorem step_answersOrSilent (s : State) : AnswersOrSilent s (step s) := by
  cases hhost : s.host with
  | nil => exact .inl ⟨s, step_of_no_input hhost⟩
  | cons input later =>
    cases input with
    | blockReset => exact .inl ⟨_, step_of_blockReset hhost⟩
    | packet p =>
      cases hdec : decode p.words with
      | op i => exact step_of_op hhost hdec ▸ exec_answersOrSilent i (s.accept p later)
      | illegal why => exact .inl ⟨_, step_of_illegal hhost hdec⟩

/-- Actions with an event among them send at least one, however they end. -/
theorem runActs_trace_grows {acts : List BusAct} (hev : actEvents acts ≠ []) (s : State) :
    s.trace.length < (runActs acts s).1.trace.length := by
  cases hend : (runActs acts s).2 with
  | ok =>
    have hpos := List.length_pos_iff.mpr hev
    simpa [runActs_trace_ok hend, acked] using hpos
  | err =>
    obtain ⟨before, e, _, _, _, htrace⟩ := runActs_trace_err hend
    simp [htrace]

/-- An operation that sent an event does not end when no answer is left (log 6). -/
theorem conclude_of_silent {s t : State} (hleft : s.answersLeft = some 0) (hsent : s.trace.length < t.trace.length) :
    s.conclude t = .fault .neverAnswered := by
  simp only [State.conclude, hleft]
  exact if_neg (by omega)

/-- A bus operation with an event to send stops when no answer is left (R212; log 6). -/
theorem busOp_of_silent {s : State} {acts : List BusAct} {onErr : State → State}
    (hon : ∀ u, (onErr u).trace = u.trace) (hev : actEvents acts ≠ []) (hleft : s.answersLeft = some 0) :
    s.busOp acts onErr = .fault .neverAnswered := by
  have hsent := runActs_trace_grows hev s
  refine conclude_of_silent hleft ?_
  cases hrun : runActs acts s with
  | mk t ack =>
    rw [hrun] at hsent
    cases ack with
    | ok => exact hsent
    | err => simpa [hon] using hsent

/-- Settles O52: a step answers or is stopped by silence, and both sequencer operations have an event to send, so that
`busOp_of_silent` stops them. -/
theorem onlyASilentEnvironmentStops : Obligations.OnlyASilentEnvironmentStops := by
  refine ⟨step_answersOrSilent, fun s o ho hleft => ⟨?_, ?_⟩⟩
  · have hev : actEvents ((issueEvents s.cfg (.orientation o)).map .emit) ≠ [] := by
      rw [actEvents_map_emit, issueEvents_orientation]
      exact List.cons_ne_nil _ _
    exact (exec_setOrientation_supported ho).trans (busOp_of_silent (fun _ => rfl) hev hleft)
  · have hev : actEvents (initActs s.cfg o) ≠ [] := by simp [initActs_events, initSequence]
    exact (exec_init_supported ho).trans (busOp_of_silent (fun _ => rfl) hev hleft)

end Sys2Proof.Machine
